-- ==== Sys2Proof/Word.lean ====
section
/-! DEFINITION. The word types of CORE (00_scope.md R10, R11, R12). -/

namespace Sys2Proof

/-- One register cell or one instruction word: 8 bits, unsigned (R10, R11). -/
abbrev Byte := BitVec 8

/-- The value of a composite view: 16 bits, unsigned (R10, R26). -/
abbrev Half := BitVec 16

end Sys2Proof
end

