-- ==== Sys2Proof/Config.lean ====
section
/-! DEFINITION. What an implementation of CORE fixes (00_scope.md R10). The spec leaves no result open
(93_implementation_defined.md: "No source passage gives an operation an undefined result"), so there is no free value
here. The decoder's codes are in Decode.lean and the status numbers in Machine/Ops.lean. -/

namespace Sys2Proof

/-- Width of the instruction word in bits (R83; the spec's decision D2, log entry 5). -/
def Config.instrWordBits : Nat := 8

/-- What every cell of the register bank holds at power-on: "all cells zero" (R39, R180). -/
def Config.powerOnCell : Byte := 0x00#8

end Sys2Proof
end

