-- ==== Sys2Proof/Syntax.lean ====
section
/-! DEFINITION. The names of CORE's registers, views and flags, its seven instructions, the fields of an instruction
word, and the operations of its interface (00_scope.md R9; 10_state.md R20, R26; 30_encoding.md R80 to R85). -/

namespace Sys2Proof

/-- `RegName`, the eight cells (R20). No numeric register address is defined (D11). -/
inductive RegName where
  | a | b | c | d | e | f | h | l
  deriving DecidableEq, Repr

/-- `PairName`, the three composite views (R26). There is no AF view (R27, D5; log entry 8). -/
inductive PairName where
  | bc | de | hl
  deriving DecidableEq, Repr

/-- The four flags of F, by the names of the operations that set and test them (R24, R33). -/
inductive Flag where
  | zero | subtraction | halfCarry | carry
  deriving DecidableEq, Repr

/-- `ArithmeticTarget` (R81): "F is excluded". -/
inductive Target where
  | a | b | c | d | e | h | l
  deriving DecidableEq, Repr

/-- The seven instructions (R80), one constructor per row of the opcode table. The source's form is one tag `Add` with a
target: `instrTarget` and `addOf` of Decode.lean are the two directions of that reading
(DESIGN CHOICE, safe; log entry 1). -/
inductive Instr where
  /-- ADD A, B (R130) -/
  | addB
  /-- ADD A, C (R131) -/
  | addC
  /-- ADD A, D (R132) -/
  | addD
  /-- ADD A, E (R133) -/
  | addE
  /-- ADD A, H (R134) -/
  | addH
  /-- ADD A, L (R135) -/
  | addL
  /-- ADD A, A (R136) -/
  | addA
  deriving DecidableEq, Repr

/-- The two fields of an instruction word of format ALU-r8 (R83). -/
structure WordFields where
  /-- bits 7..3 -/
  op : BitVec 5
  /-- bits 2..0 -/
  r  : BitVec 3
  deriving DecidableEq, Repr

/-- What the decoder answers (R85): an instruction, or Illegal. -/
inductive Decoded where
  | instr (i : Instr)
  | illegal
  deriving DecidableEq, Repr

/-- The operations of CORE's interface (R9): these and no other. -/
inductive HostOp where
  /-- `exec(instr)` (R100) -/
  | exec (i : Instr)
  /-- `exec_word(w)` (R86) -/
  | execWord (w : Byte)
  /-- `read(r)` (R30) -/
  | read (r : RegName)
  /-- `write(r, v)` (R31, R32) -/
  | write (r : RegName) (v : Byte)
  /-- `read_pair(p)` (R28) -/
  | readPair (p : PairName)
  /-- `write_pair(p, v)` (R29) -/
  | writePair (p : PairName) (v : Half)
  /-- `set_<flag>(b)` (R33) -/
  | setFlag (g : Flag) (b : Bool)
  /-- `has_<flag>()` (R34) -/
  | hasFlag (g : Flag)
  deriving DecidableEq, Repr

/-- What reaches CORE from outside: an operation of the host, or a reset by the system that contains CORE (R182, which
is no operation of R9; log entry 9). -/
inductive HostEvent where
  | op (o : HostOp)
  | reset
  deriving DecidableEq, Repr

end Sys2Proof
end

