-- ==== Sys2Proof/WellFormed.lean ====
section
/-! DEFINITION. The checks on what may be an instruction: the two fields of a word (30_encoding.md R83, R84) and the
register an ALU operand may name (R81). -/

namespace Sys2Proof

/-- The op field "must be 0b10000" (R83). -/
def WordFields.opOk (x : WordFields) : Bool :=
  x.op == 0b10000#5

/-- Code 0b110 names no target: "illegal in CORE" (R84, D4). -/
def WordFields.targetOk (x : WordFields) : Bool :=
  x.r != 0b110#3

/-- A word whose fields meet both checks is an instruction (R84, R85). -/
def WordFields.wellFormed (x : WordFields) : Bool :=
  x.opOk && x.targetOk

/-- F "is never a valid arithmetic operand" (R81); each other register is one. -/
def RegName.operandOk (r : RegName) : Bool :=
  r != .f

/-- An instruction is well formed when the register it adds may be an ALU operand (R81, R130 to R136). Instr is closed,
so every one of its values passes: the exclusion of F is in the type Target. -/
def Instr.wellFormed (i : Instr) : Bool :=
  match i with
  | .addB => RegName.operandOk .b
  | .addC => RegName.operandOk .c
  | .addD => RegName.operandOk .d
  | .addE => RegName.operandOk .e
  | .addH => RegName.operandOk .h
  | .addL => RegName.operandOk .l
  | .addA => RegName.operandOk .a

end Sys2Proof
end

