-- ==== Sys2Proof/Decode.lean ====
section
/-! DEFINITION. The instruction word's decoder, total on all 256 words, and its encoder (30_encoding.md R83 to R88; the
word format is the spec's decision D2, log entry 5). -/

namespace Sys2Proof

/-- The instruction `Add(t)` of R80. -/
def addOf (t : Target) : Instr :=
  match t with
  | .a => .addA
  | .b => .addB
  | .c => .addC
  | .d => .addD
  | .e => .addE
  | .h => .addH
  | .l => .addL

/-- The target `t` of the instruction `Add(t)` (R80, R130 to R136). -/
def instrTarget (i : Instr) : Target :=
  match i with
  | .addA => .a
  | .addB => .b
  | .addC => .c
  | .addD => .d
  | .addE => .e
  | .addH => .h
  | .addL => .l

/-- The fields of a word: op is bits 7..3 and r is bits 2..0 (R83). -/
def splitWord (w : Byte) : WordFields :=
  ⟨w.extractLsb' 3 5, w.extractLsb' 0 3⟩

/-- The word whose fields are given (R83). -/
def joinFields (x : WordFields) : Byte :=
  x.op ++ x.r

/-- The target that an r code names, none for 0b110 (R84, R85). -/
def decodeTarget (r : BitVec 3) : Option Target :=
  match r.toNat with
  | 0 => some .b
  | 1 => some .c
  | 2 => some .d
  | 3 => some .e
  | 4 => some .h
  | 5 => some .l
  | 7 => some .a
  | _ => none

/-- `decode(w)` of R85: "total on all 256 words". -/
def decode (w : Byte) : Decoded :=
  if (splitWord w).op = 0b10000#5 then
    match decodeTarget (splitWord w).r with
    | some t => .instr (addOf t)
    | none => .illegal
  else .illegal

/-- The r code of a target, by the table of R84. -/
def targetCode (t : Target) : BitVec 3 :=
  match t with
  | .b => 0b000#3
  | .c => 0b001#3
  | .d => 0b010#3
  | .e => 0b011#3
  | .h => 0b100#3
  | .l => 0b101#3
  | .a => 0b111#3

/-- The word of an instruction, by the tables of R83 and R84. -/
def encode (i : Instr) : Byte :=
  joinFields ⟨0b10000#5, targetCode (instrTarget i)⟩

/-- The first word of an instruction laid out in `nbits` bits as the opcode table numbers them: its low 8 bits, the bits
above `nbits` zero. "Every instruction is one word long" (R88), so the first word is the whole of it (log entry 11). -/
def firstWord (nbits w : Nat) : Byte :=
  BitVec.ofNat Config.instrWordBits (w % 2 ^ nbits)

/-- The decoder's answer on a word numbered as spec/opcode_table.json numbers it: none where it is Illegal. -/
def decodeTableWord (nbits w : Nat) : Option Instr :=
  match decode (firstWord nbits w) with
  | .instr i => some i
  | .illegal => none

end Sys2Proof
end

