-- ==== Sys2Proof/Machine/State.lean ====
section
/-! DEFINITION. The state of CORE as plain data, its reset value, and the reasons an operation can end otherwise than OK
(10_state.md R20 to R39; 60_exceptions.md R150 to R160). -/

namespace Sys2Proof.Machine

/-- The errors of CORE (R150). -/
inductive CoreError where
  /-- `write(F, v)` with a non-zero low nibble (R151): recoverable, carries nothing. -/
  | invalidFlagValue
  /-- A register write that cannot fail did not return OK (R152): fatal. It carries the register and the instruction;
  `none` is a write by the host, when no instruction runs (DESIGN CHOICE, safe; log entry 7). -/
  | invariantViolation (reg : RegName) (instr : Option Instr)
  /-- `exec_word(w)` with an illegal word (R154): recoverable, carries the word. -/
  | illegalInstruction (w : Byte)
  deriving DecidableEq, Repr

/-- The status an operation returns to the host (R150). -/
inductive Status where
  | ok
  | error (e : CoreError)
  deriving DecidableEq, Repr

/-- What an operation returns, by the column "outputs" of R9. -/
inductive Response where
  /-- `exec`, `exec_word`, `write`, `write_pair` -/
  | status (st : Status)
  /-- `read` -/
  | byte (v : Byte)
  /-- `read_pair` -/
  | half (v : Half)
  /-- `has_<flag>` -/
  | bit (b : Bool)
  /-- `set_<flag>`, which has no output -/
  | done
  deriving DecidableEq, Repr

/-- `RegisterBank`, the eight 8-bit cells (R20). -/
structure RegBank where
  a : Byte
  b : Byte
  c : Byte
  d : Byte
  e : Byte
  f : Byte
  h : Byte
  l : Byte
  deriving DecidableEq, Repr

/-- The state. `bank` is the whole of what R20 and R21 call the state of CORE. `illegalSeen` is the mark of R154, which
no operation clears (D3). `pending` and `response` are the model's own: what the host has issued and CORE has not yet
run, oldest first (R114, R185; log entry 2), and what the last finished operation returned to the host
(R9; log entry 3). -/
structure State where
  bank        : RegBank
  illegalSeen : Bool
  pending     : List HostEvent
  response    : Option Response
  deriving DecidableEq, Repr

/-- Why the machine stops. -/
inductive Fault where
  /-- InvariantViolation (R152, D8): raised by the result write of an instruction (R109) and by the host's write of a
  register other than F. "The run ends, the register contents are unspecified", so no state is given. It names the
  register and the instruction. Safe: nothing is claimed of the state after it; unreachable (R153). -/
  | invariantViolation (reg : RegName) (instr : Option Instr)
  deriving DecidableEq, Repr

/-- Why an instruction has no meaning. -/
inductive Refusal where
  /-- Raised by an arm of exec whose instruction has no meaning yet. Safe: nothing can be proved of a run that meets it.
  No arm does so in this model. -/
  | notModelled (mnemonic : String)
  deriving DecidableEq, Repr

/-- The register bank at power-on: "all cells zero" (R39, R180). -/
def RegBank.powerOn : RegBank :=
  ⟨Config.powerOnCell, Config.powerOnCell, Config.powerOnCell, Config.powerOnCell,
   Config.powerOnCell, Config.powerOnCell, Config.powerOnCell, Config.powerOnCell⟩

/-- The machine after power-on (R39, R180, R181): every cell zero. No illegal word has been seen (DESIGN CHOICE, unsafe;
log entry 4), the host has issued nothing (log entry 2) and nothing has been returned (log entry 3). -/
def State.reset : State :=
  ⟨RegBank.powerOn, false, [], none⟩

end Sys2Proof.Machine
end

