-- ==== Sys2Proof/Machine/Flags.lean ====
section
/-! DEFINITION. The flag register's layout and accessors, and the 8-bit adder with its flag generator
(10_state.md R23 to R25, R32 to R34; 40_dispatch_alu.md R104 to R107). -/

namespace Sys2Proof.Machine

/-- `bool(c)` as a byte: 1 when the condition holds and 0 otherwise (R12). -/
def boolByte (b : Bool) : Byte :=
  if b then 1#8 else 0#8

/-- The bit of F that holds a flag: Z 7, N 6, H 5, C 4 (R24). -/
def flagPos (g : Flag) : Nat :=
  match g with
  | .zero => 7
  | .subtraction => 6
  | .halfCarry => 5
  | .carry => 4

/-- "The mask of flag bit at position pos is `1 << pos`" (R24). -/
def flagMask (g : Flag) : Byte :=
  1#8 <<< flagPos g

/-- `set_<flag>(b)` on the byte F (R33): mask operations, no check of the low nibble. -/
def setFlagBit (g : Flag) (b : Bool) (v : Byte) : Byte :=
  if b then v ||| flagMask g else v &&& ~~~(flagMask g)

/-- `has_<flag>()` on the byte F (R34). -/
def hasFlagBit (g : Flag) (v : Byte) : Bool :=
  v.getLsbD (flagPos g)

/-- The check of a write to F: `v & 0x0F == 0` (R23, R32). -/
def flagByteOk (v : Byte) : Bool :=
  v &&& 0x0F#8 == 0#8

/-- The four outputs of the flag generator (R106). -/
structure AluFlags where
  z : Bool
  n : Bool
  h : Bool
  c : Bool
  deriving DecidableEq, Repr

/-- `(z << 7) | (n << 6) | (h << 5) | (c << 4)`, bits 3..0 zero (R107). -/
def packFlags (x : AluFlags) : Byte :=
  (boolByte x.z <<< 7) ||| (boolByte x.n <<< 6) ||| (boolByte x.h <<< 5) ||| (boolByte x.c <<< 4)

/-- `s9 = zext_9(old) + zext_9(v)` (R104): no carry input. -/
def addSum9 (old v : Byte) : BitVec 9 :=
  old.zeroExtend 9 + v.zeroExtend 9

/-- `sum = s9[7:0]` (R104). -/
def addSum (old v : Byte) : Byte :=
  (addSum9 old v).extractLsb' 0 8

/-- `carry_out = s9[8]` (R104). -/
def addCarry (old v : Byte) : Bool :=
  (addSum9 old v).getLsbD 8

/-- `h = bool(old[3:0] + v[3:0] > 0xF)`, the sum taken in the naturals (R105, R12). -/
def addHalfCarry (old v : Byte) : Bool :=
  decide ((old.extractLsb' 0 4).toNat + (v.extractLsb' 0 4).toNat > 0xF)

/-- The flag generator of ADD (R106): every flag is written and N is cleared unconditionally. -/
def addFlags (old v : Byte) : AluFlags where
  z := addSum old v == 0x00#8
  n := false
  h := addHalfCarry old v
  c := addCarry old v

end Sys2Proof.Machine
end

