-- ==== Sys2Proof/Machine/Ops.lean ====
section
/-! DEFINITION. The named operations over the register bank and the state: cell access, the checked byte write, the
composite views, how an operation ends OK and how it ends in an error (10_state.md R26 to R34; 40_dispatch_alu.md R108,
R109; 60_exceptions.md R150 to R160). -/

namespace Sys2Proof.Machine

/-- The state with another register bank. -/
def State.setBank (s : State) (k : RegBank) : State := { s with bank := k }

/-- The state with another queue of host events. -/
def State.setPending (s : State) (q : List HostEvent) : State := { s with pending := q }

/-- The state with another answer to the host. -/
def State.setResponse (s : State) (r : Option Response) : State := { s with response := r }

/-- The state with the mark of R154 set. -/
def State.markIllegal (s : State) : State := { s with illegalSeen := true }

/-- `x[r]` (R13), which is `read(r)` (R30): total, never fails, changes nothing. -/
def readCell (r : RegName) (k : RegBank) : Byte :=
  match r with
  | .a => k.a
  | .b => k.b
  | .c => k.c
  | .d => k.d
  | .e => k.e
  | .f => k.f
  | .h => k.h
  | .l => k.l

/-- The bank with cell r holding v and no other cell changed; no check (the check of a write to F is `writeReg`'s). -/
def setCell (r : RegName) (v : Byte) (k : RegBank) : RegBank :=
  match r with
  | .a => { k with a := v }
  | .b => { k with b := v }
  | .c => { k with c := v }
  | .d => { k with d := v }
  | .e => { k with e := v }
  | .f => { k with f := v }
  | .h => { k with h := v }
  | .l => { k with l := v }

/-- `write(r, v)`: OK and v stored unchanged for r other than F (R31); for F the low nibble is checked first, and a
refused write leaves the bank as it was (R32). -/
def writeReg (r : RegName) (v : Byte) (k : RegBank) : Status × RegBank :=
  if r = .f then
    if flagByteOk v then (.ok, setCell .f v k) else (.error .invalidFlagValue, k)
  else (.ok, setCell r v k)

/-- The register that holds bits 15..8 of a view: the first-named one (R26, R62). -/
def pairHigh (p : PairName) : RegName :=
  match p with
  | .bc => .b
  | .de => .d
  | .hl => .h

/-- The register that holds bits 7..0 of a view: the second-named one (R26, R62). -/
def pairLow (p : PairName) : RegName :=
  match p with
  | .bc => .c
  | .de => .e
  | .hl => .l

/-- `read_pair(p)` (R28): `{hi, lo}`. -/
def readPair (p : PairName) (k : RegBank) : Half :=
  readCell (pairHigh p) k ++ readCell (pairLow p) k

/-- `write_pair(p, v)` (R29): v[15:8] to the first register and v[7:0] to the second; it always succeeds. -/
def writePair (p : PairName) (v : Half) (k : RegBank) : RegBank :=
  setCell (pairLow p) (v.extractLsb' 0 8) (setCell (pairHigh p) (v.extractLsb' 8 8) k)

/-- `set_<flag>(b)` on the bank (R33): it changes F only and does not go through the check of R32. -/
def setFlag (g : Flag) (b : Bool) (k : RegBank) : RegBank :=
  setCell .f (setFlagBit g b (readCell .f k)) k

/-- `has_<flag>()` on the bank (R34). -/
def hasFlag (g : Flag) (k : RegBank) : Bool :=
  hasFlagBit g (readCell .f k)

/-- The number of a status (R155; the spec's decision D7, log entry 12). -/
def Status.code (st : Status) : Nat :=
  match st with
  | .ok => 0
  | .error .invalidFlagValue => 1
  | .error (.invariantViolation _ _) => 2
  | .error (.illegalInstruction _) => 3

/-- An operation ends and its answer r goes to the host (R9). -/
def complete (r : Response) (s : State) : Host.Outcome State Fault Refusal :=
  .next (s.setResponse (some r))

/-- `raise E(info)`, the one way an operation ends in an error, from the state the operation began with. CORE has no trap
mechanism: nothing is saved, masked or vectored, and the status goes to the host (R156). InvalidFlagValue changes
nothing (R151). IllegalInstruction changes no register and sets the mark (R154). After both the run goes on (R159).
InvariantViolation ends the run in a fault (R152, D8). There is no return from an error: the host issues what follows
(R159). -/
def raise (e : CoreError) (s : State) : Host.Outcome State Fault Refusal :=
  match e with
  | .invalidFlagValue => complete (.status (.error .invalidFlagValue)) s
  | .illegalInstruction w => complete (.status (.error (.illegalInstruction w))) s.markIllegal
  | .invariantViolation reg instr => .fault (.invariantViolation reg instr)

/-- The result writeback (R108) with its status checked (R109): the value goes to dest through the byte write, and a
write that does not return OK is the fatal InvariantViolation, with the register and the instruction. -/
def writeResult (dest : RegName) (v : Byte) (i : Instr) (s : State) : Host.Outcome State Fault Refusal :=
  match writeReg dest v s.bank with
  | (.ok, k) => complete (.status .ok) (s.setBank k)
  | (.error _, _) => raise (.invariantViolation dest (some i)) s

end Sys2Proof.Machine
end

