-- ==== Sys2Proof/Machine/Operands.lean ====
section
/-! DEFINITION. The operands of an instruction (30_encoding.md R89; 40_dispatch_alu.md R102, R103). -/

namespace Sys2Proof.Machine

/-- `regOf`, the register of the same name: "a direct one-to-one mapping" (R102). No target maps to F. -/
def regOf (t : Target) : RegName :=
  match t with
  | .a => .a
  | .b => .b
  | .c => .c
  | .d => .d
  | .e => .e
  | .h => .h
  | .l => .l

/-- The implied first operand and destination: the accumulator (R89). -/
def accumulatorReg : RegName := .a

/-- `v = read(target)` (R103). -/
def operandValue (t : Target) (k : RegBank) : Byte :=
  readCell (regOf t) k

/-- `old = read(A)` (R103). -/
def accumulatorValue (k : RegBank) : Byte :=
  readCell accumulatorReg k

end Sys2Proof.Machine
end

