-- ==== Sys2Proof/Machine/Add.lean ====
section
/-! DEFINITION. The ADD A,r family (40_dispatch_alu.md R100, R103 to R110; 41_add.md R130 to R136). -/

namespace Sys2Proof.Machine

/-- `exec_add(t)` of R100. Both operands are read before anything is written (R103); the flag writeback is one write of
the generated byte to F, which needs no check (R107, D16); then the sum goes to A (R108, R109). -/
def execAdd (t : Target) (s : State) : Host.Outcome State Fault Refusal :=
  let v := operandValue t s.bank
  let old := accumulatorValue s.bank
  let flagged := s.setBank (setCell .f (packFlags (addFlags old v)) s.bank)
  writeResult accumulatorReg (addSum old v) (addOf t) flagged

/-- ADD A, B (R130). -/
def execAddB (s : State) : Host.Outcome State Fault Refusal := execAdd .b s

/-- ADD A, C (R131). -/
def execAddC (s : State) : Host.Outcome State Fault Refusal := execAdd .c s

/-- ADD A, D (R132). -/
def execAddD (s : State) : Host.Outcome State Fault Refusal := execAdd .d s

/-- ADD A, E (R133). -/
def execAddE (s : State) : Host.Outcome State Fault Refusal := execAdd .e s

/-- ADD A, H (R134). -/
def execAddH (s : State) : Host.Outcome State Fault Refusal := execAdd .h s

/-- ADD A, L (R135). -/
def execAddL (s : State) : Host.Outcome State Fault Refusal := execAdd .l s

/-- ADD A, A (R136). -/
def execAddA (s : State) : Host.Outcome State Fault Refusal := execAdd .a s

end Sys2Proof.Machine
end

