-- ==== Sys2Proof/Machine/HostOps.lean ====
section
/-! DEFINITION. The operations of CORE's interface, each one indivisible step (00_scope.md R8, R9; 10_state.md R28 to
R34; 30_encoding.md R86), and the reset of a system that contains CORE (70_reset_and_hazards.md R182). -/

namespace Sys2Proof.Machine

/-- `read(r)` (R30). -/
def hostRead (r : RegName) (s : State) : Host.Outcome State Fault Refusal :=
  complete (.byte (readCell r s.bank)) s

/-- `write(r, v)` (R31, R32). A failed write of F is InvalidFlagValue (R151); a failed write of another register would be
the fatal InvariantViolation, with no instruction to name (R152, R153; log entry 7). -/
def hostWrite (r : RegName) (v : Byte) (s : State) : Host.Outcome State Fault Refusal :=
  match writeReg r v s.bank with
  | (.ok, k) => complete (.status .ok) (s.setBank k)
  | (.error e, _) => if r = .f then raise e s else raise (.invariantViolation r none) s

/-- `read_pair(p)` (R28). -/
def hostReadPair (p : PairName) (s : State) : Host.Outcome State Fault Refusal :=
  complete (.half (readPair p s.bank)) s

/-- `write_pair(p, v)` (R29). -/
def hostWritePair (p : PairName) (v : Half) (s : State) : Host.Outcome State Fault Refusal :=
  complete (.status .ok) (s.setBank (writePair p v s.bank))

/-- `set_<flag>(b)` (R33), which returns no status. -/
def hostSetFlag (g : Flag) (b : Bool) (s : State) : Host.Outcome State Fault Refusal :=
  complete .done (s.setBank (setFlag g b s.bank))

/-- `has_<flag>()` (R34). -/
def hostHasFlag (g : Flag) (s : State) : Host.Outcome State Fault Refusal :=
  complete (.bit (hasFlag g s.bank)) s

/-- `exec_word(w)` (R86): the decode is checked first (R158, D19); an illegal word runs no handler (R154). -/
def execWord (w : Byte) (s : State) : Host.Outcome State Fault Refusal :=
  match decode w with
  | .instr i => exec i s
  | .illegal => raise (.illegalInstruction w) s

/-- A reset by the containing system: the register bank becomes that of power-on (R182, D14). The mark stays, since it
records what the run has seen, the host's queue stays, since it is the host's, and nothing is returned
(DESIGN CHOICE, unsafe; log entry 9). -/
def warmReset (s : State) : Host.Outcome State Fault Refusal :=
  .next ((s.setBank RegBank.powerOn).setResponse none)

/-- One operation of the interface (R9). -/
def perform (o : HostOp) (s : State) : Host.Outcome State Fault Refusal :=
  match o with
  | .exec i => exec i s
  | .execWord w => execWord w s
  | .read r => hostRead r s
  | .write r v => hostWrite r v s
  | .readPair p => hostReadPair p s
  | .writePair p v => hostWritePair p v s
  | .setFlag g b => hostSetFlag g b s
  | .hasFlag g => hostHasFlag g s

/-- One event from outside. -/
def performEvent (e : HostEvent) (s : State) : Host.Outcome State Fault Refusal :=
  match e with
  | .op o => perform o s
  | .reset => warmReset s

/-- What CORE does next: the oldest event the host has issued and CORE has not run, taken off the queue first, so that
events take effect one at a time in the order issued (R68, R114). With none left, CORE "is idle between operations and
keeps its state while idle" (R167; log entry 2). -/
def stepPending (s : State) : Host.Outcome State Fault Refusal :=
  match s.pending with
  | [] => .next s
  | e :: rest => performEvent e (s.setPending rest)

end Sys2Proof.Machine
end

