-- ==== Sys2Proof/Machine/Step.lean ====
section
/-! DEFINITION. One step of the machine, and how an instruction word is put before it. -/

namespace Sys2Proof.Machine

/-- One step: the next operation of the host's sequence, or nothing when there is none (70_reset_and_hazards.md R185). -/
def step (s : State) : Host.Outcome State Fault Refusal :=
  stepPending s

/-- The state in which the host's next operation is `exec_word` of the given word. CORE fetches nothing (R60, R114): the
host supplies each instruction, so the place where step finds its next instruction is the head of the host's sequence
(log entry 2). -/
def State.withFetchWord (s : State) (nbits w : Nat) : State :=
  s.setPending (.op (.execWord (firstWord nbits w)) :: s.pending)

end Sys2Proof.Machine
end

