-- ==== Sys2Proof/Safety.lean ====
section
/-! DEFINITION. What claims call a good state and a good run (10_state.md R23; 60_exceptions.md R152 to R154;
70_reset_and_hazards.md R185). -/

namespace Sys2Proof.Machine

/-- "Bits 0–3 are always zero. Invariant: at every observable point, `F & 0x0F == 0`." (R23) -/
abbrev State.FlagNibbleZero (s : State) : Prop :=
  s.bank.f &&& 0x0F#8 = 0#8

/-- "No illegal instruction seen": the premise that D3 and R154 give a claim about a run of words. -/
abbrev State.NoIllegalSeen (s : State) : Prop :=
  s.illegalSeen = false

/-- An outcome that is a normal end of a run of the host's sequence (R185): a state, with nothing of the sequence left.
A fault is "never a normal end" (R152). -/
def NormalEnd (o : Host.Outcome State Fault Refusal) : Prop :=
  match o with
  | .next t => t.pending = []
  | .fault _ => False
  | .refused _ => False

/-- The run of the whole of the host's sequence from s (R185): one step for each event issued. -/
def runPending (s : State) : Host.Outcome State Fault Refusal :=
  Host.Core.run Sys2Proof.core s.pending.length s

end Sys2Proof.Machine
end

