-- ==== Sys2Proof/Certificates/Slice0/Obligations.lean ====
section
/-! DEFINITION. The statements for the provers. Each docstring names the rule of spec/ that it formalises. The right sides
are written out from the rules (numbers, record fields), not by the model's own arithmetic, wherever a rule gives a
value. -/

open Sys2Proof Sys2Proof.Machine

/-- The register an instruction adds, by the list of 41_add.md R130 to R136. -/
def Sys2Proof.Claims.addedReg (i : Instr) : RegName :=
  match i with
  | .addB => .b
  | .addC => .c
  | .addD => .d
  | .addE => .e
  | .addH => .h
  | .addL => .l
  | .addA => .a

/-- The exact sum of the accumulator and the register an instruction adds, in the naturals. -/
def Sys2Proof.Claims.exactSum (i : Instr) (s : State) : Nat :=
  s.bank.a.toNat + (readCell (Sys2Proof.Claims.addedReg i) s.bank).toNat

/-- The state after A has had v added: A and F as R104 to R106 and the layout of R24 give them, status OK, all else as it
was. -/
def Sys2Proof.Claims.addAfter (s : State) (v : Byte) : State :=
  { s with
    bank := { s.bank with
      a := BitVec.ofNat 8 ((s.bank.a.toNat + v.toNat) % 256)
      f := BitVec.ofNat 8
        ((if (s.bank.a.toNat + v.toNat) % 256 = 0 then 128 else 0) +
          (if s.bank.a.toNat % 16 + v.toNat % 16 > 15 then 32 else 0) +
          (if s.bank.a.toNat + v.toNat > 255 then 16 else 0)) }
    response := some (.status .ok) }

/-- The bit of F that a flag names (R24). -/
def Sys2Proof.Claims.bitOf (g : Flag) : Nat :=
  match g with
  | .zero => 7
  | .subtraction => 6
  | .halfCarry => 5
  | .carry => 4

/-- The cells an operation of the interface may change, by the table of R36. -/
def Sys2Proof.Claims.mayWrite (o : HostOp) : List RegName :=
  match o with
  | .exec _ => [.a, .f]
  | .execWord _ => [.a, .f]
  | .read _ => []
  | .write r _ => [r]
  | .readPair _ => []
  | .writePair .bc _ => [.b, .c]
  | .writePair .de _ => [.d, .e]
  | .writePair .hl _ => [.h, .l]
  | .setFlag _ _ => [.f]
  | .hasFlag _ => []

/-- The operations R66 calls writes. -/
def Sys2Proof.Claims.isWrite (o : HostOp) : Bool :=
  match o with
  | .write _ _ => true
  | .writePair _ _ => true
  | .setFlag _ _ => true
  | .exec _ => false
  | .execWord _ => false
  | .read _ => false
  | .readPair _ => false
  | .hasFlag _ => false

/-- The words of R87: 0x00 to 0x7F, 0x86, and 0x88 to 0xFF. -/
def Sys2Proof.Claims.IllegalRange (w : Byte) : Prop :=
  w.toNat ≤ 0x7F ∨ w.toNat = 0x86 ∨ 0x88 ≤ w.toNat

open Sys2Proof.Claims

/-! ### Power-on -/

/-- R39: at power-on every cell, every view and every flag reads zero. -/
def Obligations.PowerOnReadsAllZero : Prop :=
  (∀ r, readCell r State.reset.bank = 0x00#8) ∧
  (∀ p, readPair p State.reset.bank = 0x0000#16) ∧
  (∀ g, hasFlag g State.reset.bank = false)

/-- R23 ("The invariant holds after reset because F resets to 0x00"). That the mark of R154 starts false is the model's
choice (log entry 4). -/
def Obligations.ResetHasFlagNibbleZeroAndNoMark : Prop :=
  State.reset.FlagNibbleZero ∧ State.reset.NoIllegalSeen

/-! ### The ADD A,r family -/

/-- R104, R105: each of the seven instructions answers the next state the rules give, in every state: the sum modulo 256
in A, the four flags in F, status OK and nothing else changed. -/
def Obligations.AddCompletesWithSumAndFlagByte : Prop :=
  ∀ s : State,
    exec .addB s = .next (addAfter s s.bank.b) ∧
    exec .addC s = .next (addAfter s s.bank.c) ∧
    exec .addD s = .next (addAfter s s.bank.d) ∧
    exec .addE s = .next (addAfter s s.bank.e) ∧
    exec .addH s = .next (addAfter s s.bank.h) ∧
    exec .addL s = .next (addAfter s s.bank.l) ∧
    exec .addA s = .next (addAfter s s.bank.a)

/-- R106, R137: the source's quantified laws, read through the flag accessors; N is cleared whatever it was. -/
def Obligations.AddSatisfiesQuantifiedLaws : Prop :=
  ∀ (i : Instr) (s : State), ∃ t, exec i s = .next t ∧
    t.bank.a.toNat = exactSum i s % 256 ∧
    (hasFlag .zero t.bank = true ↔ exactSum i s % 256 = 0) ∧
    (hasFlag .carry t.bank = true ↔ exactSum i s > 255) ∧
    (hasFlag .halfCarry t.bank = true ↔
      s.bank.a.toNat % 16 + (readCell (addedReg i) s.bank).toNat % 16 > 15) ∧
    hasFlag .subtraction t.bank = false

/-- R136: ADD A, A doubles the old A. Z is set exactly for an old A of 0x00 or 0x80, H is old bit 3, C is old bit 7, N is
0, and no other cell changes. -/
def Obligations.AddAccumulatorDoublesOldValue : Prop :=
  ∀ s : State, ∃ t, exec .addA s = .next t ∧
    t.bank.a = s.bank.a <<< 1 ∧
    (hasFlag .zero t.bank = true ↔ s.bank.a = 0x00#8 ∨ s.bank.a = 0x80#8) ∧
    hasFlag .subtraction t.bank = false ∧
    hasFlag .halfCarry t.bank = s.bank.a.getLsbD 3 ∧
    hasFlag .carry t.bank = s.bank.a.getLsbD 7 ∧
    t.bank.f.toNat % 16 = 0 ∧
    (∀ r, r ≠ .a → r ≠ .f → readCell r t.bank = readCell r s.bank)

/-- R110: the frame of the family. An instruction changes A and F and no other cell; the views, which hold neither, keep
their values; F's low nibble is zero; the mark and the host's queue are as before. -/
def Obligations.AddChangesOnlyAAndF : Prop :=
  ∀ (i : Instr) (s t : State), exec i s = .next t →
    (∀ r, r ≠ .a → r ≠ .f → readCell r t.bank = readCell r s.bank) ∧
    (∀ p, readPair p t.bank = readPair p s.bank) ∧
    t.bank.f.toNat % 16 = 0 ∧
    t.illegalSeen = s.illegalSeen ∧ t.pending = s.pending

/-- R139: the outcome of an instruction does not depend on the flags it found, whatever byte F held, and so neither does
the outcome of a whole run whose first operation is an instruction, as a value or as its word (the host's queue is the
model's own, log entry 2; the word form is the spec's decision D2, log entry 5). -/
def Obligations.AddErasesOldFlags : Prop :=
  ∀ (i : Instr) (s : State) (x : Byte),
    exec i { s with bank := { s.bank with f := x } } = exec i s ∧
    ∀ o rest, o = .exec i ∨ o = .execWord (encode i) → s.pending = .op o :: rest →
      runPending { s with bank := { s.bank with f := x } } = runPending s

/-- R138: from identical snapshots of the register bank an instruction gives identical snapshots, whatever the mark, the
queue and the last answer were. -/
def Obligations.AddIsDeterminedByRegisterBank : Prop :=
  ∀ (i : Instr) (s s' : State), s.bank = s'.bank →
    ∃ t t', exec i s = .next t ∧ exec i s' = .next t' ∧ t.bank = t'.bank

/-- R113 (h), (i): after an instruction F is one of seven bytes, and Z without C happens only when both operands are
zero. An instruction other than ADD A, A reaches each of the seven. -/
def Obligations.AddLeavesOneOfSevenFlagBytes : Prop :=
  (∀ (i : Instr) (s t : State), exec i s = .next t →
    t.bank.f ∈ [0x00#8, 0x10#8, 0x20#8, 0x30#8, 0x80#8, 0x90#8, 0xB0#8] ∧
    (hasFlag .zero t.bank = true ∧ hasFlag .carry t.bank = false ↔
      s.bank.a = 0x00#8 ∧ readCell (addedReg i) s.bank = 0x00#8)) ∧
  (∀ (i : Instr) (x : Byte), i ≠ .addA →
    x ∈ [0x00#8, 0x10#8, 0x20#8, 0x30#8, 0x80#8, 0x90#8, 0xB0#8] →
      ∃ s t, exec i s = .next t ∧ t.bank.f = x)

/-- R113 (f): the result and the flags are symmetric in the two operands. -/
def Obligations.AddIsSymmetricInItsOperands : Prop :=
  ∀ (i : Instr) (s : State) (x y : Byte), i ≠ .addA →
    ∃ t t',
      exec i (s.setBank (setCell .a x (setCell (addedReg i) y s.bank))) = .next t ∧
      exec i (s.setBank (setCell .a y (setCell (addedReg i) x s.bank))) = .next t' ∧
      t.bank.a = t'.bank.a ∧ t.bank.f = t'.bank.f

/-- R102: each target names the register of the same name, and none names F. -/
def Obligations.TargetsNameTheirRegisters : Prop :=
  regOf .a = .a ∧ regOf .b = .b ∧ regOf .c = .c ∧ regOf .d = .d ∧ regOf .e = .e ∧ regOf .h = .h ∧ regOf .l = .l ∧
  ∀ t, regOf t ≠ .f

/-- R107: the one-byte flag writeback gives what four setter calls give, on any F with a zero low nibble, and its byte
passes the check of a write to F. -/
def Obligations.FlagWritebackEqualsFourSetters : Prop :=
  ∀ (x : AluFlags) (v : Byte), v &&& 0x0F#8 = 0#8 →
    setFlagBit .carry x.c (setFlagBit .halfCarry x.h (setFlagBit .subtraction x.n (setFlagBit .zero x.z v))) =
      packFlags x ∧
    packFlags x &&& 0x0F#8 = 0#8

/-- R109: a result write that does not return OK ends the operation in the fatal InvariantViolation, with the register and
the instruction. In CORE as specified no instruction reaches it (R153). -/
def Obligations.FailedResultWriteIsInvariantViolation : Prop :=
  ∀ (dest : RegName) (v : Byte) (i : Instr) (s : State) (e : CoreError) (k : RegBank),
    writeReg dest v s.bank = (.error e, k) →
      writeResult dest v i s = .fault (.invariantViolation dest (some i))

/-! ### The register file -/

/-- R30: `read(r)` answers the content of r and changes nothing; the low nibble of F reads zero wherever R23 holds. -/
def Obligations.ReadAnswersTheCell : Prop :=
  ∀ s : State,
    perform (.read .a) s = .next { s with response := some (.byte s.bank.a) } ∧
    perform (.read .b) s = .next { s with response := some (.byte s.bank.b) } ∧
    perform (.read .c) s = .next { s with response := some (.byte s.bank.c) } ∧
    perform (.read .d) s = .next { s with response := some (.byte s.bank.d) } ∧
    perform (.read .e) s = .next { s with response := some (.byte s.bank.e) } ∧
    perform (.read .f) s = .next { s with response := some (.byte s.bank.f) } ∧
    perform (.read .h) s = .next { s with response := some (.byte s.bank.h) } ∧
    perform (.read .l) s = .next { s with response := some (.byte s.bank.l) } ∧
    (s.FlagNibbleZero → s.bank.f.toNat % 16 = 0)

/-- R31: a write of any register but F is OK, stores the value, which then reads back, and changes nothing else. -/
def Obligations.WriteOfOtherRegisterStoresValue : Prop :=
  ∀ (r : RegName) (v : Byte) (s : State), r ≠ .f →
    ∃ t, perform (.write r v) s = .next t ∧
      t.response = some (.status .ok) ∧
      perform (.read r) t = .next { t with response := some (.byte v) } ∧
      (∀ q, q ≠ r → readCell q t.bank = readCell q s.bank) ∧
      t.illegalSeen = s.illegalSeen ∧ t.pending = s.pending

/-- R32: of the 256 byte values, F takes exactly 0x00, 0x10, ..., 0xF0; any other value is refused with InvalidFlagValue
and changes nothing. -/
def Obligations.WriteOfFlagRegisterIsChecked : Prop :=
  ∀ (v : Byte) (s : State),
    ((∃ n < 16, v.toNat = 16 * n) →
      perform (.write .f v) s =
        .next { s with bank := { s.bank with f := v }, response := some (.status .ok) }) ∧
    (¬ (∃ n < 16, v.toNat = 16 * n) →
      perform (.write .f v) s = .next { s with response := some (.status (.error .invalidFlagValue)) })

/-- R151: InvalidFlagValue is raised by `write(F, v)` exactly when the low nibble of v is not zero, by no other operation,
and it leaves everything as it was. -/
def Obligations.InvalidFlagValueExactlyOnBadFlagWrite : Prop :=
  ∀ (o : HostOp) (s : State),
    ((∃ t, perform o s = .next t ∧ t.response = some (.status (.error .invalidFlagValue))) ↔
      ∃ v, o = .write .f v ∧ v &&& 0x0F#8 ≠ 0#8) ∧
    (∀ t, perform o s = .next t → t.response = some (.status (.error .invalidFlagValue)) →
      t = { s with response := some (.status (.error .invalidFlagValue)) })

/-- R28: `read_pair(p)` answers 256 times the first-named register plus the second and changes nothing. -/
def Obligations.ReadPairAnswersTheView : Prop :=
  ∀ s : State,
    perform (.readPair .bc) s =
      .next { s with response := some (.half (BitVec.ofNat 16 (256 * s.bank.b.toNat + s.bank.c.toNat))) } ∧
    perform (.readPair .de) s =
      .next { s with response := some (.half (BitVec.ofNat 16 (256 * s.bank.d.toNat + s.bank.e.toNat))) } ∧
    perform (.readPair .hl) s =
      .next { s with response := some (.half (BitVec.ofNat 16 (256 * s.bank.h.toNat + s.bank.l.toNat))) }

/-- R29: `write_pair(p, v)` puts the high byte in the first-named register and the low byte in the second, is OK for each
of the 65,536 values and changes nothing else. That it is one step is the spec's decision D1. -/
def Obligations.WritePairSplitsTheValue : Prop :=
  ∀ (v : Half) (s : State),
    perform (.writePair .bc v) s =
      .next { s with bank := { s.bank with b := BitVec.ofNat 8 (v.toNat / 256), c := BitVec.ofNat 8 (v.toNat % 256) },
                     response := some (.status .ok) } ∧
    perform (.writePair .de v) s =
      .next { s with bank := { s.bank with d := BitVec.ofNat 8 (v.toNat / 256), e := BitVec.ofNat 8 (v.toNat % 256) },
                     response := some (.status .ok) } ∧
    perform (.writePair .hl v) s =
      .next { s with bank := { s.bank with h := BitVec.ofNat 8 (v.toNat / 256), l := BitVec.ofNat 8 (v.toNat % 256) },
                     response := some (.status .ok) }

/-- R62: the byte order of a view is fixed. A pair write and a read of the pair agree, as do a byte write of either
register and a read of the pair, first-named register high. -/
def Obligations.ViewByteOrderIsFixed : Prop :=
  ∀ (v : Half) (x : Byte) (s : State),
    (∀ p, ∃ t, perform (.writePair p v) s = .next t ∧
      perform (.readPair p) t = .next { t with response := some (.half v) } ∧
      perform (.read (pairHigh p)) t = .next { t with response := some (.byte (BitVec.ofNat 8 (v.toNat / 256))) } ∧
      perform (.read (pairLow p)) t = .next { t with response := some (.byte (BitVec.ofNat 8 (v.toNat % 256))) }) ∧
    (∀ p, ∃ t, perform (.write (pairHigh p) x) s = .next t ∧
      (readPair p t.bank).toNat = 256 * x.toNat + (readCell (pairLow p) s.bank).toNat) ∧
    (∀ p, ∃ t, perform (.write (pairLow p) x) s = .next t ∧
      (readPair p t.bank).toNat = 256 * (readCell (pairHigh p) s.bank).toNat + x.toNat) ∧
    (pairHigh .bc = .b ∧ pairLow .bc = .c ∧ pairHigh .de = .d ∧ pairLow .de = .e ∧
      pairHigh .hl = .h ∧ pairLow .hl = .l)

/-- R33: a flag setter writes its bit of F (Z 7, N 6, H 5, C 4) and no other bit, always succeeds, returns no status and
changes no other register. It holds in every state, whatever F's low nibble. -/
def Obligations.SetFlagWritesExactlyOneBit : Prop :=
  ∀ (g : Flag) (b : Bool) (s : State), ∃ t, perform (.setFlag g b) s = .next t ∧
    t.response = some .done ∧
    (∀ j, t.bank.f.getLsbD j = if j = bitOf g then b else s.bank.f.getLsbD j) ∧
    (∀ r, r ≠ .f → readCell r t.bank = readCell r s.bank) ∧
    t.illegalSeen = s.illegalSeen ∧ t.pending = s.pending

/-- R34: a flag getter answers its bit of F and changes nothing. -/
def Obligations.HasFlagAnswersOneBit : Prop :=
  ∀ (g : Flag) (s : State),
    perform (.hasFlag g) s = .next { s with response := some (.bit (s.bank.f.getLsbD (bitOf g))) }

/-- R66: writes are idempotent; the second of two equal writes changes nothing at all, a refused one included. -/
def Obligations.WritesAreIdempotent : Prop :=
  ∀ (o : HostOp) (s t : State), isWrite o = true → perform o s = .next t → perform o t = .next t

/-- R36: each operation changes only the cells the table lists for it. -/
def Obligations.OperationsChangeOnlyListedCells : Prop :=
  ∀ (o : HostOp) (s t : State), perform o s = .next t →
    (∀ r, r ∉ mayWrite o → readCell r t.bank = readCell r s.bank) ∧ t.pending = s.pending

/-! ### The instruction word -/

/-- R84, R85 (the spec's decision D2): decoding an encoded instruction gives it back, and a word that decodes to an
instruction is that instruction's encoding. -/
def Obligations.DecodeAndEncodeAgree : Prop :=
  (∀ i : Instr, i.wellFormed = true → decode (encode i) = .instr i) ∧
  (∀ (w : Byte) (i : Instr), decode w = .instr i → encode i = w)

/-- R84 and the decoder table of 95_test_vectors.md (decisions D2, D4): words written out bit by bit. -/
def Obligations.DecodeReadsTheTablesWords : Prop :=
  decode 0b10000000#8 = .instr .addB ∧ decode 0b10000001#8 = .instr .addC ∧
  decode 0b10000010#8 = .instr .addD ∧ decode 0b10000011#8 = .instr .addE ∧
  decode 0b10000100#8 = .instr .addH ∧ decode 0b10000101#8 = .instr .addL ∧
  decode 0b10000111#8 = .instr .addA ∧ decode 0b10000110#8 = .illegal ∧
  decode 0b00000000#8 = .illegal ∧ decode 0b01111111#8 = .illegal ∧
  decode 0b10001000#8 = .illegal ∧ decode 0b11001011#8 = .illegal

/-- R87, R154 (decisions D3, D4): an illegal word, and no other, answers IllegalInstruction with the word; it changes no
register and sets the mark, and the run goes on. -/
def Obligations.IllegalWordAnswersAndSetsTheMark : Prop :=
  ∀ (w : Byte) (s : State),
    (IllegalRange w → perform (.execWord w) s =
      .next { s with illegalSeen := true, response := some (.status (.error (.illegalInstruction w))) }) ∧
    (¬ IllegalRange w → ∃ t, perform (.execWord w) s = .next t ∧
      t.response = some (.status .ok) ∧ t.illegalSeen = s.illegalSeen)

/-- R86 (decision D2): `exec_word` of an instruction's word is `exec` of the instruction. -/
def Obligations.WordFormRunsTheInstruction : Prop :=
  ∀ s : State,
    perform (.execWord 0x80#8) s = exec .addB s ∧ perform (.execWord 0x81#8) s = exec .addC s ∧
    perform (.execWord 0x82#8) s = exec .addD s ∧ perform (.execWord 0x83#8) s = exec .addE s ∧
    perform (.execWord 0x84#8) s = exec .addH s ∧ perform (.execWord 0x85#8) s = exec .addL s ∧
    perform (.execWord 0x87#8) s = exec .addA s

/-! ### Errors -/

/-- R157, R158 (decision D19): an error after which the run goes on leaves the register bank and the queue exactly as they
were, and it is either InvalidFlagValue of a bad write to F, with the mark as it was, or IllegalInstruction of an illegal
word (R87). That the mark is set after IllegalInstruction is no part of R157, which says that nothing changes: it is R154
by the spec's decision D3 (log entry 6). -/
def Obligations.RecoverableErrorsArePrecise : Prop :=
  ∀ (o : HostOp) (s t : State) (e : CoreError), perform o s = .next t →
    t.response = some (.status (.error e)) →
      t.bank = s.bank ∧ t.pending = s.pending ∧
      ((e = .invalidFlagValue ∧ (∃ v, o = .write .f v ∧ v &&& 0x0F#8 ≠ 0#8) ∧ t.illegalSeen = s.illegalSeen) ∨
       (∃ w, e = .illegalInstruction w ∧ o = .execWord w ∧ IllegalRange w ∧ t.illegalSeen = true))

/-- R153: InvariantViolation is never raised. The statement says more than R153: every operation completes in a next state,
with an answer for the host, and so does every step. That an illegal word answers a next state and is not refused is
R86, R154 and R159 by the spec's decision D3 (log entry 6). A step also covers a reset by the containing system, which
gives the cells of power-on (R182, D14, log entry 9), and an idle machine, whose step is the model's reading of R167
(DEDUCED, log entry 2). -/
def Obligations.InvariantViolationIsUnreachable : Prop :=
  (∀ (o : HostOp) (s : State), ∃ t r, perform o s = .next t ∧ t.response = some r) ∧
  (∀ s : State, ∃ t, step s = .next t)

/-- R154 (decision D3): a step sets the mark exactly when the operation it runs is an illegal word, and nothing clears it.
That a reset by the system keeps it is the model's choice (log entry 9). -/
def Obligations.IllegalMarkIsSticky : Prop :=
  ∀ s t : State, step s = .next t →
    (t.illegalSeen = true ↔
      s.illegalSeen = true ∨ ∃ w rest, s.pending = .op (.execWord w) :: rest ∧ IllegalRange w)

/-- R155 (decision D7): the status numbers. -/
def Obligations.StatusNumbersAreAsDecided : Prop :=
  Status.ok.code = 0 ∧ (Status.error .invalidFlagValue).code = 1 ∧
  (∀ r i, (Status.error (.invariantViolation r i)).code = 2) ∧
  (∀ w, (Status.error (.illegalInstruction w)).code = 3)

/-! ### The machine -/

/-- R86, R114: when the host's next operation is an instruction word that decodes to a well-formed instruction, a step is
exec of that instruction on the state with the operation taken off the queue (log entry 2). -/
def Obligations.StepRunsTheDecodedInstruction : Prop :=
  ∀ (s : State) (w : Byte) (i : Instr) (rest : List HostEvent),
    s.pending = .op (.execWord w) :: rest → decode w = .instr i → i.wellFormed = true →
      step s = exec i { s with pending := rest }

/-- R86, R88, R114: a word of the opcode table, supplied as the host's next instruction, runs as the very next step on the
state as it was (log entries 2 and 11). -/
def Obligations.SuppliedTableWordRunsNext : Prop :=
  ∀ (s : State) (nbits w : Nat) (i : Instr), decodeTableWord nbits w = some i →
    step (s.withFetchWord nbits w) = exec i s

/-- R68, R167: a step runs the oldest operation the host has issued; with none left the machine stays as it is
(the queue is the model's own, log entry 2). -/
def Obligations.StepTakesTheOldestOperation : Prop :=
  (∀ (s : State) (o : HostOp) (rest : List HostEvent),
    s.pending = .op o :: rest → step s = perform o { s with pending := rest }) ∧
  (∀ s : State, s.pending = [] → step s = .next s)

/-- R182 (decision D14): a reset by the containing system gives the cells of power-on. That the mark and the queue stay
and that nothing is returned is the model's choice (log entry 9). -/
def Obligations.SystemResetGivesPowerOnCells : Prop :=
  ∀ (s : State) (rest : List HostEvent), s.pending = .reset :: rest →
    ∃ t, step s = .next t ∧ (∀ r, readCell r t.bank = 0x00#8) ∧
      t.illegalSeen = s.illegalSeen ∧ t.pending = rest ∧ t.response = none

/-- R23: every step, whatever the host issues, keeps the low nibble of F zero. The steps include a reset by the containing
system (R182, D14, log entry 9) and the idle step (R167, log entry 2). -/
def Obligations.EveryStepKeepsFlagNibbleZero : Prop :=
  ∀ s t : State, s.FlagNibbleZero → step s = .next t → t.FlagNibbleZero

/-- R185, R112 (decision D9): from every state, the run of the host's whole finite sequence ends normally, one step for
each event (the queue is the model's own, log entry 2); F's low nibble is zero at the end if it was at the start. That
the run goes on past an illegal word is R154 and R159 by the spec's decision D3 (log entry 6). A mark set before is still
set at the end: no operation clears it (R154), and that a reset by the containing system (R182, D14) keeps it is the
model's choice (log entry 9). -/
def Obligations.EveryHostSequenceEndsNormally : Prop :=
  ∀ s : State, NormalEnd (runPending s) ∧
    ∀ t, runPending s = .next t →
      (s.FlagNibbleZero → t.FlagNibbleZero) ∧ (s.illegalSeen = true → t.illegalSeen = true)

/-- R68: the effects of a sequence are those of its first part followed by those of its second: each operation sees every
earlier one and none of any later one. That a host sequence is a queue, and that two are issued one after the other by
joining their queues, is the model's choice (log entry 2). That the rest of the queue survives a reset by the containing
system (R182, D14) in the first part is the model's choice too (log entry 9). -/
def Obligations.SequencesComposeInOrder : Prop :=
  ∀ (q q' : List HostEvent) (s t : State), runPending { s with pending := q } = .next t →
    runPending { s with pending := q ++ q' } = runPending { t with pending := q' }
end

