-- ==== Sys2Proof/Laws/Decode.lean ====
section
/-! SUPPORT. The small laws of the decoder and the encoder (30_encoding.md R80 to R85). -/

namespace Sys2Proof

@[simp] theorem addOf_instrTarget (i : Instr) : addOf (instrTarget i) = i := by
  cases i <;> rfl

@[simp] theorem instrTarget_addOf (t : Target) : instrTarget (addOf t) = t := by
  cases t <;> rfl

@[simp] theorem splitWord_joinFields (x : WordFields) : splitWord (joinFields x) = x := by
  obtain ⟨op, r⟩ := x
  revert op r
  decide

@[simp] theorem joinFields_splitWord (w : Byte) : joinFields (splitWord w) = w := by
  revert w
  decide

/-- An r code names the target whose code it is, and no other code does (R84). -/
theorem decodeTarget_eq_some_iff (r : BitVec 3) (t : Target) : decodeTarget r = some t ↔ targetCode t = r := by
  revert r
  cases t <;> decide

/-- The decoder answers an instruction exactly on the words whose fields pass the checks of R83 and R84. -/
theorem decode_ne_illegal_iff (w : Byte) : decode w ≠ .illegal ↔ (splitWord w).wellFormed = true := by
  revert w
  decide

end Sys2Proof
end

