-- ==== Sys2Proof/Laws/State.lean ====
section
/-! SUPPORT. One lemma per field per update of State, and the cells of the register bank: reading back, and reading
another cell. -/

namespace Sys2Proof.Machine

variable (s : State)

@[simp] theorem State.setBank_bank (k : RegBank) : (s.setBank k).bank = k := rfl
@[simp] theorem State.setBank_illegalSeen (k : RegBank) : (s.setBank k).illegalSeen = s.illegalSeen := rfl
@[simp] theorem State.setBank_pending (k : RegBank) : (s.setBank k).pending = s.pending := rfl
@[simp] theorem State.setBank_response (k : RegBank) : (s.setBank k).response = s.response := rfl

@[simp] theorem State.setPending_bank (q : List HostEvent) : (s.setPending q).bank = s.bank := rfl
@[simp] theorem State.setPending_illegalSeen (q : List HostEvent) :
    (s.setPending q).illegalSeen = s.illegalSeen := rfl
@[simp] theorem State.setPending_pending (q : List HostEvent) : (s.setPending q).pending = q := rfl
@[simp] theorem State.setPending_response (q : List HostEvent) : (s.setPending q).response = s.response := rfl

@[simp] theorem State.setResponse_bank (r : Option Response) : (s.setResponse r).bank = s.bank := rfl
@[simp] theorem State.setResponse_illegalSeen (r : Option Response) :
    (s.setResponse r).illegalSeen = s.illegalSeen := rfl
@[simp] theorem State.setResponse_pending (r : Option Response) : (s.setResponse r).pending = s.pending := rfl
@[simp] theorem State.setResponse_response (r : Option Response) : (s.setResponse r).response = r := rfl

@[simp] theorem State.markIllegal_bank : s.markIllegal.bank = s.bank := rfl
@[simp] theorem State.markIllegal_illegalSeen : s.markIllegal.illegalSeen = true := rfl
@[simp] theorem State.markIllegal_pending : s.markIllegal.pending = s.pending := rfl
@[simp] theorem State.markIllegal_response : s.markIllegal.response = s.response := rfl

@[simp] theorem State.setBank_setBank (k k' : RegBank) : (s.setBank k).setBank k' = s.setBank k' := rfl

/-- Reading a cell after one cell was set: the value set there, any other cell as before. -/
theorem readCell_setCell (r q : RegName) (v : Byte) (k : RegBank) :
    readCell q (setCell r v k) = if q = r then v else readCell q k := by
  cases r <;> cases q <;> rfl

@[simp] theorem readCell_setCell_same (r : RegName) (v : Byte) (k : RegBank) :
    readCell r (setCell r v k) = v := by
  simp [readCell_setCell]

@[simp] theorem readCell_setCell_other {r q : RegName} (h : q ≠ r) (v : Byte) (k : RegBank) :
    readCell q (setCell r v k) = readCell q k := by
  simp [readCell_setCell, h]

/-- Two banks with the same value in every cell are equal. -/
theorem RegBank.ext_readCell {k k' : RegBank} (h : ∀ r, readCell r k = readCell r k') : k = k' := by
  cases k
  cases k'
  simp only [RegBank.mk.injEq]
  exact ⟨h .a, h .b, h .c, h .d, h .e, h .f, h .h, h .l⟩

/-- Setting a cell to the value it holds changes nothing. -/
@[simp] theorem setCell_readCell (r : RegName) (k : RegBank) : setCell r (readCell r k) k = k := by
  cases r <;> rfl

end Sys2Proof.Machine
end

