-- ==== Sys2Proof/Laws/Flags.lean ====
section
/-! SUPPORT. What each flag operation and the adder do, in the terms the rules state (10_state.md R32 to R34;
40_dispatch_alu.md R104 to R107). -/

namespace Sys2Proof.Machine

/-- The generated flag byte always passes the check of a write to F (R107). -/
@[simp] theorem flagByteOk_packFlags (x : AluFlags) : flagByteOk (packFlags x) = true := by
  obtain ⟨z, n, h, c⟩ := x
  cases z <;> cases n <;> cases h <;> cases c <;> rfl

/-- The check of R32 by bits: each of the four low bits is 0. -/
theorem flagByteOk_iff (v : Byte) :
    flagByteOk v = true ↔ ∀ j < 4, v.getLsbD j = false := by
  revert v
  decide

/-- A flag setter writes its own bit and no other (R33). -/
theorem getLsbD_setFlagBit (g : Flag) (b : Bool) (v : Byte) (j : Nat) :
    (setFlagBit g b v).getLsbD j = if j = flagPos g then b else v.getLsbD j := by
  by_cases hj : j < 8
  · interval_cases j <;> cases g <;> cases b <;> simp [setFlagBit, flagMask, flagPos]
  · have h7 : flagPos g ≤ 7 := by cases g <;> decide
    have hne : j ≠ flagPos g := by omega
    simp [hne, BitVec.getLsbD_of_ge _ _ (Nat.le_of_not_lt hj)]

/-- Each flag of a packed byte is the generator's output (R24, R107). -/
theorem hasFlagBit_packFlags (g : Flag) (x : AluFlags) :
    hasFlagBit g (packFlags x) =
      match g with
      | .zero => x.z
      | .subtraction => x.n
      | .halfCarry => x.h
      | .carry => x.c := by
  obtain ⟨z, n, h, c⟩ := x
  cases z <;> cases n <;> cases h <;> cases c <;> cases g <;> rfl

/-- The nine-bit sum is the exact sum (R104). -/
theorem toNat_addSum9 (old v : Byte) : (addSum9 old v).toNat = old.toNat + v.toNat := by
  have ho := old.isLt
  have hv := v.isLt
  simp only [addSum9, BitVec.truncate_eq_setWidth, BitVec.toNat_add, BitVec.toNat_setWidth]
  omega

/-- The result is the sum modulo 256 (R104). -/
theorem toNat_addSum (old v : Byte) : (addSum old v).toNat = (old.toNat + v.toNat) % 256 := by
  simp only [addSum, BitVec.extractLsb'_toNat, toNat_addSum9, Nat.shiftRight_zero, Nat.reducePow]

/-- The carry is the sum's ninth bit: set exactly when the exact sum is over 255 (R104). -/
theorem addCarry_eq (old v : Byte) : addCarry old v = decide (old.toNat + v.toNat > 255) := by
  have ho := old.isLt
  have hv := v.isLt
  have hlt : old.toNat + v.toNat < 2 ^ 9 := by omega
  simp only [addCarry, BitVec.getLsbD, toNat_addSum9, Nat.testBit_eq_decide_div_mod_eq]
  exact decide_eq_decide.mpr (by omega)

/-- The half carry comes from the low nibbles alone (R105). -/
theorem addHalfCarry_eq (old v : Byte) :
    addHalfCarry old v = decide (old.toNat % 16 + v.toNat % 16 > 15) := by
  simp only [addHalfCarry, BitVec.extractLsb'_toNat, Nat.shiftRight_zero, Nat.reducePow]

end Sys2Proof.Machine
end

