-- ==== Sys2Proof/Laws/Ops.lean ====
section
/-! SUPPORT. What each shared operation over the register bank can do, once (10_state.md R28 to R33; 40_dispatch_alu.md
R108, R109; 60_exceptions.md R151 to R154). -/

namespace Sys2Proof.Machine

/-- A write of a register other than F is OK and stores the value (R31). -/
theorem writeReg_of_ne_f {r : RegName} (h : r ≠ .f) (v : Byte) (k : RegBank) :
    writeReg r v k = (.ok, setCell r v k) := by
  simp [writeReg, h]

/-- A write of F whose low nibble is zero sets F to the value (R32). -/
theorem writeReg_f_of_ok {v : Byte} (h : flagByteOk v = true) (k : RegBank) :
    writeReg .f v k = (.ok, setCell .f v k) := by
  simp [writeReg, h]

/-- A write of F whose low nibble is not zero is refused and changes nothing (R32). -/
theorem writeReg_f_of_not_ok {v : Byte} (h : flagByteOk v = false) (k : RegBank) :
    writeReg .f v k = (.error .invalidFlagValue, k) := by
  simp [writeReg, h]

/-- A view's value is 256 times its first register plus its second (R26, R28). -/
theorem toNat_readPair (p : PairName) (k : RegBank) :
    (readPair p k).toNat = 256 * (readCell (pairHigh p) k).toNat + (readCell (pairLow p) k).toNat := by
  have hlo := (readCell (pairLow p) k).isLt
  simp only [readPair, BitVec.toNat_append, Nat.shiftLeft_eq]
  rw [Nat.mul_comm, ← Nat.two_pow_add_eq_or_of_lt hlo]

/-- A pair write sets the view's two registers to the halves of the value and no other register (R29). -/
theorem readCell_writePair (q : RegName) (p : PairName) (v : Half) (k : RegBank) :
    readCell q (writePair p v k) =
      if q = pairLow p then v.extractLsb' 0 8
      else if q = pairHigh p then v.extractLsb' 8 8
      else readCell q k := by
  cases p <;> cases q <;> rfl

/-- The result write of an instruction, whose destination is A, always succeeds (R108). -/
theorem writeResult_accumulator (v : Byte) (i : Instr) (s : State) :
    writeResult .a v i s = .next ((s.setBank (setCell .a v s.bank)).setResponse (some (.status .ok))) := by
  simp [writeResult, writeReg_of_ne_f, complete]

/-- A result write routed to F, with a byte F cannot hold, is the fatal fault with the register and the instruction
(R109, R153: the outcome is kept although no instruction reaches it). -/
theorem writeResult_f_of_not_ok {v : Byte} (h : flagByteOk v = false) (i : Instr) (s : State) :
    writeResult .f v i s = .fault (.invariantViolation .f (some i)) := by
  simp [writeResult, writeReg_f_of_not_ok h, raise]

/-- An error after which the run goes on changes no register and nothing of the host's queue; the status goes to the
host, and the mark is set by an illegal word (R151, R154, R157). -/
theorem raise_next {e : CoreError} {s t : State} (h : raise e s = .next t) :
    t.bank = s.bank ∧ t.pending = s.pending ∧ t.response = some (.status (.error e)) ∧
      t.illegalSeen = match e with
        | .illegalInstruction _ => true
        | _ => s.illegalSeen := by
  cases e with
  | invariantViolation reg instr => simp [raise] at h
  | invalidFlagValue =>
    obtain rfl : _ = t := by simpa [raise, complete] using h
    simp
  | illegalInstruction w =>
    obtain rfl : _ = t := by simpa [raise, complete] using h
    simp

end Sys2Proof.Machine
end

