-- ==== Sys2Proof/Laws/Exec.lean ====
section
/-! SUPPORT. What an instruction, an operation of the interface and a step can do, once
(40_dispatch_alu.md R100; 30_encoding.md R86; 70_reset_and_hazards.md R185). -/

namespace Sys2Proof.Machine

/-- The dispatcher runs the handler with the instruction's target (R101). -/
theorem exec_eq_execAdd (i : Instr) (s : State) : exec i s = execAdd (instrTarget i) s := by
  cases i <;> rfl

/-- The handler writes the generated flags to F and the sum to A, and answers OK (R100). -/
theorem execAdd_eq (t : Target) (s : State) :
    execAdd t s =
      .next ((s.setBank
        (setCell .a (addSum s.bank.a (operandValue t s.bank))
          (setCell .f (packFlags (addFlags s.bank.a (operandValue t s.bank))) s.bank))).setResponse
            (some (.status .ok))) := by
  simp only [execAdd, accumulatorReg, writeResult_accumulator, State.setBank_bank, State.setBank_setBank]
  rfl

/-- An instruction word runs its instruction, and an illegal word raises IllegalInstruction (R86). -/
theorem execWord_of_instr {w : Byte} {i : Instr} (h : decode w = .instr i) (s : State) :
    execWord w s = exec i s := by
  simp [execWord, h]

theorem execWord_of_illegal {w : Byte} (h : decode w = .illegal) (s : State) :
    execWord w s = .next (s.markIllegal.setResponse (some (.status (.error (.illegalInstruction w))))) := by
  simp [execWord, h, raise, complete]

/-- The host's write, in its three cases (R31, R32). -/
theorem hostWrite_of_ne_f {r : RegName} (h : r ≠ .f) (v : Byte) (s : State) :
    hostWrite r v s = .next ((s.setBank (setCell r v s.bank)).setResponse (some (.status .ok))) := by
  simp [hostWrite, writeReg_of_ne_f h, complete]

theorem hostWrite_f_of_ok {v : Byte} (h : flagByteOk v = true) (s : State) :
    hostWrite .f v s = .next ((s.setBank (setCell .f v s.bank)).setResponse (some (.status .ok))) := by
  simp [hostWrite, writeReg_f_of_ok h, complete]

theorem hostWrite_f_of_not_ok {v : Byte} (h : flagByteOk v = false) (s : State) :
    hostWrite .f v s = .next (s.setResponse (some (.status (.error .invalidFlagValue)))) := by
  simp [hostWrite, writeReg_f_of_not_ok h, raise, complete]

/-- A step takes the oldest event off the queue and runs it, or leaves an idle machine as it is (R68, R167). -/
theorem step_of_cons {s : State} {e : HostEvent} {rest : List HostEvent} (h : s.pending = e :: rest) :
    step s = performEvent e (s.setPending rest) := by
  simp [step, stepPending, h]

theorem step_of_nil {s : State} (h : s.pending = []) : step s = .next s := by
  simp [step, stepPending, h]

/-- Everything an operation of the interface can do when it answers a next state (R9). -/
theorem perform_cases {o : HostOp} {s t : State} (h : perform o s = .next t) :
    (∃ i, (o = .exec i ∨ ∃ w, o = .execWord w ∧ decode w = .instr i) ∧ exec i s = .next t) ∨
    (∃ w, o = .execWord w ∧ decode w = .illegal ∧
      t = s.markIllegal.setResponse (some (.status (.error (.illegalInstruction w))))) ∨
    (∃ r, o = .read r ∧ t = s.setResponse (some (.byte (readCell r s.bank)))) ∨
    (∃ r v, o = .write r v ∧ (r = .f → flagByteOk v = true) ∧
      t = (s.setBank (setCell r v s.bank)).setResponse (some (.status .ok))) ∨
    (∃ v, o = .write .f v ∧ flagByteOk v = false ∧
      t = s.setResponse (some (.status (.error .invalidFlagValue)))) ∨
    (∃ p, o = .readPair p ∧ t = s.setResponse (some (.half (readPair p s.bank)))) ∨
    (∃ p v, o = .writePair p v ∧
      t = (s.setBank (writePair p v s.bank)).setResponse (some (.status .ok))) ∨
    (∃ g b, o = .setFlag g b ∧ t = (s.setBank (setFlag g b s.bank)).setResponse (some .done)) ∨
    (∃ g, o = .hasFlag g ∧ t = s.setResponse (some (.bit (hasFlag g s.bank)))) := by
  cases o with
  | exec i => exact .inl ⟨i, .inl rfl, h⟩
  | execWord w =>
    cases hd : decode w with
    | instr i => exact .inl ⟨i, .inr ⟨w, rfl, hd⟩, (execWord_of_instr hd s).symm.trans h⟩
    | illegal =>
      injection (execWord_of_illegal hd s).symm.trans h with ht
      exact .inr (.inl ⟨w, rfl, hd, ht.symm⟩)
  | read r =>
    injection h with ht
    exact .inr (.inr (.inl ⟨r, rfl, ht.symm⟩))
  | write r v =>
    by_cases hr : r = .f
    · subst hr
      cases hv : flagByteOk v with
      | true =>
        injection (hostWrite_f_of_ok hv s).symm.trans h with ht
        exact .inr (.inr (.inr (.inl ⟨.f, v, rfl, fun _ => hv, ht.symm⟩)))
      | false =>
        injection (hostWrite_f_of_not_ok hv s).symm.trans h with ht
        exact .inr (.inr (.inr (.inr (.inl ⟨v, rfl, hv, ht.symm⟩))))
    · injection (hostWrite_of_ne_f hr v s).symm.trans h with ht
      exact .inr (.inr (.inr (.inl ⟨r, v, rfl, fun hf => absurd hf hr, ht.symm⟩)))
  | readPair p =>
    injection h with ht
    exact .inr (.inr (.inr (.inr (.inr (.inl ⟨p, rfl, ht.symm⟩)))))
  | writePair p v =>
    injection h with ht
    exact .inr (.inr (.inr (.inr (.inr (.inr (.inl ⟨p, v, rfl, ht.symm⟩))))))
  | setFlag g b =>
    injection h with ht
    exact .inr (.inr (.inr (.inr (.inr (.inr (.inr (.inl ⟨g, b, rfl, ht.symm⟩)))))))
  | hasFlag g =>
    injection h with ht
    exact .inr (.inr (.inr (.inr (.inr (.inr (.inr (.inr ⟨g, rfl, ht.symm⟩)))))))

/-- Everything a step can do when it answers a next state: stay idle, take a reset of the containing system, or run the
host's next operation (R68, R167, R182). -/
theorem step_cases {s t : State} (h : step s = .next t) :
    (s.pending = [] ∧ t = s) ∨
    (∃ rest, s.pending = .reset :: rest ∧
      t = ((s.setPending rest).setBank RegBank.powerOn).setResponse none) ∨
    (∃ o rest, s.pending = .op o :: rest ∧ perform o (s.setPending rest) = .next t) := by
  cases hp : s.pending with
  | nil =>
    injection (step_of_nil hp).symm.trans h with ht
    exact .inl ⟨rfl, ht.symm⟩
  | cons e rest =>
    have hs := (step_of_cons hp).symm.trans h
    cases e with
    | reset =>
      injection hs with ht
      exact .inr (.inl ⟨rest, rfl, ht.symm⟩)
    | op o => exact .inr (.inr ⟨o, rest, rfl, hs⟩)

end Sys2Proof.Machine
end

