-- ==== Sys2Proof/Laws/PerInstr.lean ====
section
/-! SUPPORT. The per-instruction family: every instruction is well formed and is encoded by a word whose fields pass the
checks of the format (30_encoding.md R81, R83, R84). -/

namespace Sys2Proof.Laws.EncodesWellFormed

def Statement (i : Instr) : Prop :=
  i.wellFormed = true ∧ (splitWord (encode i)).wellFormed = true

theorem addB : Statement .addB := by unfold Statement; decide
theorem addC : Statement .addC := by unfold Statement; decide
theorem addD : Statement .addD := by unfold Statement; decide
theorem addE : Statement .addE := by unfold Statement; decide
theorem addH : Statement .addH := by unfold Statement; decide
theorem addL : Statement .addL := by unfold Statement; decide
theorem addA : Statement .addA := by unfold Statement; decide

end Sys2Proof.Laws.EncodesWellFormed
end

