-- ==== Sys2Proof/Tests/Slice0.lean ====
section
/-! SUPPORT. The model's own tests. Expected values are those of 95_test_vectors.md (S1 to S6 are the source's worked
examples, V1 to V64 the spec's derived vectors), of the opcode map of 30_encoding.md section 5, or written out from the
rule named. The last part shows, for each statement with hypotheses, values that meet them together. -/

namespace Sys2Proof.Tests

open Sys2Proof.Machine
open Sys2Proof.Claims

/-- The state an outcome gives, if it gives one. -/
def stateOf (o : Host.Outcome State Fault Refusal) : Option State :=
  match o with
  | .next t => some t
  | .fault _ => none
  | .refused _ => none

/-- Power-on with A, one register r and F set: the setups of sections 2.5 and 2.6 (for r = A the value of A is x). -/
def start (x : Byte) (r : RegName) (v f : Byte) : State :=
  State.reset.setBank (setCell .a x (setCell r v (setCell .f f RegBank.powerOn)))

/-- A, F and the register r after an outcome. -/
def afr (r : RegName) (o : Host.Outcome State Fault Refusal) : Option (Byte × Byte × Byte) :=
  (stateOf o).map fun t => (t.bank.a, t.bank.f, readCell r t.bank)

/-- F and the answer to the host after an outcome. -/
def fAnswer (o : Host.Outcome State Fault Refusal) : Option (Byte × Option Response) :=
  (stateOf o).map fun t => (t.bank.f, t.response)

/-! ### WellFormed -/

theorem test_wellFormed_refuses_op : (WordFields.mk 0b10001#5 0b000#3).wellFormed = false := by decide
theorem test_wellFormed_refuses_code_six : (WordFields.mk 0b10000#5 0b110#3).wellFormed = false := by decide
theorem test_operand_refuses_f : RegName.operandOk .f = false := by decide
theorem test_wellFormed_accepts_add_a : (WordFields.mk 0b10000#5 0b111#3).wellFormed = true := by decide

/-! ### Decode (30_encoding.md section 5, and section 2.4 of 95_test_vectors.md) -/

theorem test_decode_addB : decode 0b10000000#8 = .instr .addB := by decide
theorem test_decode_addC : decode 0b10000001#8 = .instr .addC := by decide
theorem test_decode_addD : decode 0b10000010#8 = .instr .addD := by decide
theorem test_decode_addE : decode 0b10000011#8 = .instr .addE := by decide
theorem test_decode_addH : decode 0b10000100#8 = .instr .addH := by decide
theorem test_decode_addL : decode 0b10000101#8 = .instr .addL := by decide
theorem test_decode_addA : decode 0b10000111#8 = .instr .addA := by decide
theorem test_decode_memory_code : decode 0x86#8 = .illegal := by decide
theorem test_decode_below : decode 0x7F#8 = .illegal := by decide
theorem test_decode_above : decode 0x88#8 = .illegal := by decide
theorem test_decode_no_prefix_page : decode 0xCB#8 = .illegal := by decide
/-- "exactly 7 decode to an instruction" (R85). -/
theorem test_decode_seven_words :
    ((List.range 256).filter fun n => decode (BitVec.ofNat 8 n) != .illegal).length = 7 := by decide
theorem test_decodeTableWord : decodeTableWord 8 0x83 = some .addE ∧ decodeTableWord 8 0x86 = none := by decide

/-! ### ADD A, r -/

/-- S1, V30 -/
theorem test_addB_wraps_to_zero : afr .b (exec .addB (start 0xFF .b 0x01 0x00)) = some (0x00, 0xB0, 0x01) := by decide
/-- S2, V31 -/
theorem test_addB_half_carry : afr .b (exec .addB (start 0x0F .b 0x01 0x00)) = some (0x10, 0x20, 0x01) := by decide
/-- S3, V32 -/
theorem test_addC_clears_all_flags : afr .c (exec .addC (start 0x10 .c 0x10 0xF0)) = some (0x20, 0x00, 0x10) := by decide
/-- V40 -/
theorem test_addC_largest_sum : afr .c (exec .addC (start 0xFF .c 0xFF 0x00)) = some (0xFE, 0x30, 0xFF) := by decide
/-- V35 -/
theorem test_addD_carry_without_half : afr .d (exec .addD (start 0xF0 .d 0x10 0x00)) = some (0x00, 0x90, 0x10) := by decide
/-- V41 -/
theorem test_addD_clears_subtraction : afr .d (exec .addD (start 0x3A .d 0xC6 0x40)) = some (0x00, 0xB0, 0xC6) := by decide
/-- V36 -/
theorem test_addE_half_carry : afr .e (exec .addE (start 0x08 .e 0x08 0x00)) = some (0x10, 0x20, 0x08) := by decide
/-- V50 -/
theorem test_addE_no_carry_input : afr .e (exec .addE (start 0x12 .e 0x34 0x10)) = some (0x46, 0x00, 0x34) := by decide
/-- V37 -/
theorem test_addH_no_signed_overflow : afr .h (exec .addH (start 0x7F .h 0x01 0x00)) = some (0x80, 0x20, 0x01) := by decide
/-- V43 -/
theorem test_addH_both_carries : afr .h (exec .addH (start 0x3C .h 0xFF 0x00)) = some (0x3B, 0x30, 0xFF) := by decide
/-- V44 -/
theorem test_addL_nibble_sum_fifteen : afr .l (exec .addL (start 0x0E .l 0x01 0x00)) = some (0x0F, 0x00, 0x01) := by decide
/-- V38 -/
theorem test_addL_zero_with_carry : afr .l (exec .addL (start 0x80 .l 0x80 0x00)) = some (0x00, 0x90, 0x80) := by decide
/-- V57 -/
theorem test_addA_doubles_to_zero : afr .a (exec .addA (start 0x80 .a 0x80 0x00)) = some (0x00, 0x90, 0x00) := by decide
/-- V59 -/
theorem test_addA_clears_subtraction : afr .a (exec .addA (start 0xFF .a 0xFF 0x40)) = some (0xFE, 0x30, 0xFE) := by decide

/-! ### The register file -/

/-- S4, V61 -/
theorem test_write_f_refused :
    fAnswer (perform (.write .f 0x0F#8) (start 0x12 .b 0x00 0xB0)) =
      some (0xB0, some (.status (.error .invalidFlagValue))) := by decide
/-- V8: the upper nibble is not written either. -/
theorem test_write_f_refused_high_bits :
    fAnswer (perform (.write .f 0x81#8) (start 0x00 .b 0x00 0xA0)) =
      some (0xA0, some (.status (.error .invalidFlagValue))) := by decide
/-- V9 -/
theorem test_write_f_replaces :
    fAnswer (perform (.write .f 0xC0#8) (start 0x00 .b 0x00 0x30)) = some (0xC0, some (.status .ok)) := by decide
/-- V10 -/
theorem test_write_f_sixteen_values :
    ((List.range 256).filter fun n => flagByteOk (BitVec.ofNat 8 n)).length = 16 := by decide
/-- V2 -/
theorem test_write_l :
    (stateOf (perform (.write .l 0x00#8) (start 0x00 .l 0x5A 0x00))).map State.bank = some RegBank.powerOn := by decide
/-- V11 -/
theorem test_writePair_bc :
    (stateOf (perform (.writePair .bc 0x1234#16) State.reset)).map State.bank =
      some ⟨0x00, 0x12, 0x34, 0x00, 0x00, 0x00, 0x00, 0x00⟩ := by decide
/-- V14 -/
theorem test_writePair_hl_high :
    (stateOf (perform (.writePair .hl 0xFF00#16) State.reset)).map State.bank =
      some ⟨0x00, 0x00, 0x00, 0x00, 0x00, 0x00, 0xFF, 0x00⟩ := by decide
/-- V15 -/
theorem test_readPair_bc :
    fAnswer (perform (.readPair .bc) (State.reset.setBank ⟨0x00, 0xAB, 0xCD, 0x00, 0x00, 0x00, 0x00, 0x00⟩)) =
      some (0x00, some (.half 0xABCD#16)) := by decide
/-- V16 -/
theorem test_readPair_de_after_byte_write :
    readPair .de (setCell .e 0x99#8 ⟨0x00, 0x00, 0x00, 0x12, 0x34, 0x00, 0x00, 0x00⟩) = 0x1299#16 := by decide
/-- V20 -/
theorem test_setFlag_clears_zero :
    fAnswer (perform (.setFlag .zero false) (start 0x00 .b 0x00 0xB0)) = some (0x30, some .done) := by decide
/-- V22 -/
theorem test_setFlag_sets_subtraction :
    fAnswer (perform (.setFlag .subtraction true) (start 0x00 .b 0x00 0x10)) = some (0x50, some .done) := by decide
/-- V19, V21 -/
theorem test_setFlag_carry_and_half_carry :
    setFlagBit .carry true 0xA0#8 = 0xB0#8 ∧ setFlagBit .halfCarry false 0x30#8 = 0x10#8 := by decide
/-- V25 -/
theorem test_hasFlag_each :
    [hasFlagBit .subtraction 0x50#8, hasFlagBit .carry 0x50#8, hasFlagBit .zero 0x50#8, hasFlagBit .halfCarry 0x50#8] =
      [true, true, false, false] := by decide
/-- S5 -/
theorem test_hasFlag_zero :
    fAnswer (perform (.hasFlag .zero) (start 0x00 .b 0x00 0xF0)) = some (0xF0, some (.bit true)) := by decide

/-! ### Words, errors and steps -/

/-- V62 -/
theorem test_illegal_word :
    stateOf (step ((start 0x12 .b 0x34 0xB0).withFetchWord 8 0x86)) =
      some ((start 0x12 .b 0x34 0xB0).markIllegal.setResponse
        (some (.status (.error (.illegalInstruction 0x86#8))))) := by decide
/-- Program 1, step 4. -/
theorem test_word_runs :
    afr .e (step ((start 0x9C .e 0x78 0x00).withFetchWord 8 0x83)) = some (0x14, 0x30, 0x78) := by decide
/-- R109: the fault outcome is live, were a result write routed through the check of F. -/
theorem test_failed_result_write :
    writeResult .f 0x0F#8 .addB State.reset = .fault (.invariantViolation .f (some .addB)) := by rfl
/-- R155 -/
theorem test_status_codes :
    [Status.ok.code, (Status.error .invalidFlagValue).code, (Status.error (.invariantViolation .a none)).code,
      (Status.error (.illegalInstruction 0x86#8)).code] = [0, 1, 2, 3] := by decide
/-- R182: a reset zeroes the cells. -/
theorem test_system_reset :
    (stateOf (step ((start 0x12 .b 0x34 0xB0).setPending [.reset]))).map State.bank = some RegBank.powerOn := by decide

/-! ### Values that meet the hypotheses of the statements -/

theorem witness_exec_next :
    ∃ s t, exec .addB s = .next t ∧ s.bank.a = 0xFF#8 ∧ s.bank.b = 0x01#8 ∧ t.bank.f = 0xB0#8 :=
  ⟨start 0xFF .b 0x01 0x00, _, rfl, by decide⟩
theorem witness_exec_zero_without_carry :
    ∃ t, exec .addB State.reset = .next t ∧ hasFlag .zero t.bank = true ∧ hasFlag .carry t.bank = false :=
  ⟨_, rfl, by decide⟩
theorem witness_seven_flag_bytes :
    (Instr.addC ≠ .addA ∧ 0xB0#8 ∈ [0x00#8, 0x10#8, 0x20#8, 0x30#8, 0x80#8, 0x90#8, 0xB0#8]) ∧
    (Instr.addL ≠ .addA ∧ 0x00#8 ∈ [0x00#8, 0x10#8, 0x20#8, 0x30#8, 0x80#8, 0x90#8, 0xB0#8]) := by decide
theorem witness_same_bank_other_queue :
    State.reset.bank = (State.reset.markIllegal.setPending [.reset]).bank ∧
      State.reset ≠ State.reset.markIllegal.setPending [.reset] := by decide
theorem witness_symmetric : Instr.addB ≠ .addA ∧ Instr.addL ≠ .addA := by decide
theorem witness_first_operation_is_add :
    (State.reset.setPending [.op (.exec .addB), .reset]).pending = .op (.exec .addB) :: [.reset] ∧
    (State.reset.setPending [.op (.execWord (encode .addA))]).pending = .op (.execWord (encode .addA)) :: [] := by decide
theorem witness_flag_nibble_zero : 0xF0#8 &&& 0x0F#8 = 0#8 ∧ 0x00#8 &&& 0x0F#8 = 0#8 := by decide
theorem witness_failed_write : writeReg .f 0x0F#8 State.reset.bank = (.error .invalidFlagValue, State.reset.bank) := by
  decide
theorem witness_state_with_flag_nibble_zero : (start 0x00 .b 0x00 0xF0).FlagNibbleZero := by decide
theorem witness_registers_other_than_f : RegName.a ≠ .f ∧ RegName.l ≠ .f := by decide
theorem witness_flag_writes_accepted :
    (∃ n < 16, (0x00#8).toNat = 16 * n) ∧ (∃ n < 16, (0x10#8).toNat = 16 * n) ∧ (∃ n < 16, (0xF0#8).toNat = 16 * n) := by
  decide
theorem witness_flag_writes_refused :
    ¬ (∃ n < 16, (0x01#8).toNat = 16 * n) ∧ ¬ (∃ n < 16, (0x0F#8).toNat = 16 * n) ∧
      ¬ (∃ n < 16, (0xFF#8).toNat = 16 * n) := by decide
theorem witness_bad_flag_write :
    ∃ t, perform (.write .f 0x01#8) State.reset = .next t ∧
      t.response = some (.status (.error .invalidFlagValue)) := ⟨_, rfl, by decide⟩
theorem witness_writes :
    (isWrite (.write .f 0xF0#8) = true ∧ ∃ t, perform (.write .f 0xF0#8) State.reset = .next t) ∧
    (isWrite (.write .f 0x0F#8) = true ∧ ∃ t, perform (.write .f 0x0F#8) State.reset = .next t) ∧
    (isWrite (.writePair .hl 0xFFFF#16) = true ∧ ∃ t, perform (.writePair .hl 0xFFFF#16) State.reset = .next t) ∧
    (isWrite (.setFlag .carry true) = true ∧ ∃ t, perform (.setFlag .carry true) State.reset = .next t) :=
  ⟨⟨rfl, _, rfl⟩, ⟨rfl, _, rfl⟩, ⟨rfl, _, rfl⟩, ⟨rfl, _, rfl⟩⟩
theorem witness_cells_not_listed :
    (∃ t, perform (.writePair .de 0x0102#16) State.reset = .next t) ∧ RegName.b ∉ mayWrite (.writePair .de 0x0102#16) ∧
      RegName.f ∉ mayWrite (.writePair .de 0x0102#16) :=
  ⟨⟨_, rfl⟩, by decide⟩
theorem witness_well_formed_and_decoded :
    Instr.wellFormed .addB = true ∧ decode 0x87#8 = .instr .addA := by decide
theorem witness_illegal_range :
    IllegalRange 0x00#8 ∧ IllegalRange 0x7F#8 ∧ IllegalRange 0x86#8 ∧ IllegalRange 0x88#8 ∧ IllegalRange 0xFF#8 := by
  unfold IllegalRange
  decide
theorem witness_legal_range : ¬ IllegalRange 0x80#8 ∧ ¬ IllegalRange 0x85#8 ∧ ¬ IllegalRange 0x87#8 := by
  unfold IllegalRange
  decide
theorem witness_illegal_word_error :
    ∃ t, perform (.execWord 0x86#8) State.reset = .next t ∧
      t.response = some (.status (.error (.illegalInstruction 0x86#8))) := ⟨_, rfl, by decide⟩
theorem witness_step_meets_illegal_word :
    ∃ t, step (State.reset.setPending [.op (.execWord 0xFF#8)]) = .next t ∧ t.illegalSeen = true := ⟨_, rfl, by decide⟩
theorem witness_step_keeps_mark :
    ∃ t, step (State.reset.markIllegal.setPending [.reset]) = .next t ∧ t.illegalSeen = true := ⟨_, rfl, by decide⟩
theorem witness_next_word_decodes :
    (State.reset.setPending [.op (.execWord 0x85#8), .op (.read .a)]).pending =
        .op (.execWord 0x85#8) :: [.op (.read .a)] ∧
      decode 0x85#8 = .instr .addL ∧ Instr.wellFormed .addL = true := by decide
theorem witness_supplied_word : decodeTableWord 8 0x80 = some .addB ∧ decodeTableWord 8 0x87 = some .addA := by decide
theorem witness_next_operation_and_idle :
    (State.reset.setPending [.op (.read .f)]).pending = .op (.read .f) :: [] ∧ State.reset.pending = [] := by decide
theorem witness_system_reset_is_next :
    ((start 0x01 .b 0x02 0xF0).setPending [.reset, .op (.read .a)]).pending = .reset :: [.op (.read .a)] := by decide
theorem witness_step_from_flag_nibble_zero :
    ∃ t, (State.reset.setPending [.op (.setFlag .zero true)]).FlagNibbleZero ∧
      step (State.reset.setPending [.op (.setFlag .zero true)]) = .next t := ⟨_, by decide, rfl⟩
theorem witness_run_ends :
    ∃ t, runPending (State.reset.markIllegal.setPending [.op (.execWord 0x80#8), .op (.execWord 0x86#8)]) = .next t ∧
      (State.reset.markIllegal.setPending [.op (.execWord 0x80#8), .op (.execWord 0x86#8)]).FlagNibbleZero ∧
      (State.reset.markIllegal.setPending [.op (.execWord 0x80#8), .op (.execWord 0x86#8)]).illegalSeen = true :=
  ⟨_, rfl, by decide⟩
theorem witness_first_part_runs :
    ∃ t, runPending { State.reset with pending := [.op (.write .b 0x01#8), .op (.exec .addB)] } = .next t ∧
      t.bank.a = 0x01#8 := ⟨_, rfl, by decide⟩

end Sys2Proof.Tests
end

/-! PROOFS. The register file (10_state.md R23 to R39): the invariant of F, the checked write of F, the composite views,
the flag accessors and the frame of the operations. -/

namespace Sys2Proof.Machine

open Sys2Proof.Claims

/-! ### The check of a write to F, and the invariant of F -/

/-- The check of R32 in the naturals: the byte is a multiple of 16. -/
theorem flagByteOk_iff_toNat_mod (v : Byte) : flagByteOk v = true ↔ v.toNat % 16 = 0 := by
  have hand : (v &&& 0x0F#8).toNat = v.toNat % 16 := Nat.and_two_pow_sub_one_eq_mod v.toNat 4
  rw [← hand, flagByteOk, beq_iff_eq, ← BitVec.toNat_inj]
  rfl

/-- "exactly 16 are accepted: 0x00, 0x10, ..., 0xF0" (R32). -/
theorem flagByteOk_iff_exists_mul (v : Byte) : flagByteOk v = true ↔ ∃ n < 16, v.toNat = 16 * n := by
  rw [flagByteOk_iff_toNat_mod]
  constructor
  · intro hmod
    exact ⟨v.toNat / 16, by omega, by omega⟩
  · rintro ⟨n, -, hv⟩
    omega

/-- R23's invariant says that F holds a byte that the check of R32 accepts. -/
theorem flagNibbleZero_iff (s : State) : s.FlagNibbleZero ↔ flagByteOk (readCell .f s.bank) = true :=
  (beq_iff_eq (a := s.bank.f &&& 0x0F#8)).symm

/-- "The invariant holds after reset because F resets to 0x00" (R23). -/
theorem reset_flagNibbleZero : State.reset.FlagNibbleZero := by decide

/-- Every flag bit lies above the low nibble (R24), so a flag setter keeps the check of R32. -/
theorem flagByteOk_setFlagBit {v : Byte} (hv : flagByteOk v = true) (g : Flag) (b : Bool) :
    flagByteOk (setFlagBit g b v) = true := by
  have hpos : 4 ≤ flagPos g := by cases g <;> decide
  rw [flagByteOk_iff] at hv ⊢
  intro j hj
  have hne : j ≠ flagPos g := by omega
  rw [getLsbD_setFlagBit, if_neg hne, hv j hj]

/-- Setting a cell keeps the check of R32 on F, when a value set in F itself passes it. -/
theorem flagByteOk_setCell {r : RegName} {v : Byte} {k : RegBank} (hk : flagByteOk (readCell .f k) = true)
    (hv : r = .f → flagByteOk v = true) : flagByteOk (readCell .f (setCell r v k)) = true := by
  by_cases hr : r = .f
  · subst hr
    simpa using hv rfl
  · simpa [Ne.symm hr] using hk

/-! ### The composite views -/

/-- No view holds F (R26, R27). -/
@[simp] theorem readCell_f_writePair (p : PairName) (v : Half) (k : RegBank) :
    readCell .f (writePair p v k) = readCell .f k := by
  cases p <;> rfl

/-- A view as the 16-bit value that R28 writes out. -/
theorem readPair_eq_ofNat (p : PairName) (k : RegBank) :
    readPair p k = BitVec.ofNat 16 (256 * (readCell (pairHigh p) k).toNat + (readCell (pairLow p) k).toNat) := by
  rw [← toNat_readPair, BitVec.ofNat_toNat, BitVec.setWidth_eq]

theorem extractLsb'_high_eq_div (v : Half) : v.extractLsb' 8 8 = BitVec.ofNat 8 (v.toNat / 256) := by
  rw [BitVec.extractLsb', Nat.shiftRight_eq_div_pow]

theorem extractLsb'_low_eq_mod (v : Half) : v.extractLsb' 0 8 = BitVec.ofNat 8 (v.toNat % 256) := by
  apply BitVec.eq_of_toNat_eq
  simp

/-- A pair write in the terms of R29: the quotient by 256 to the first register, the remainder to the second. -/
theorem writePair_eq_div_mod (p : PairName) (v : Half) (k : RegBank) :
    writePair p v k =
      setCell (pairLow p) (BitVec.ofNat 8 (v.toNat % 256))
        (setCell (pairHigh p) (BitVec.ofNat 8 (v.toNat / 256)) k) := by
  rw [writePair, extractLsb'_high_eq_div, extractLsb'_low_eq_mod]

/-! ### What an operation leaves in the register bank -/

/-- `read(r)` answers the cell and changes nothing (R30). -/
theorem perform_read (r : RegName) (s : State) :
    perform (.read r) s = .next (s.setResponse (some (.byte (readCell r s.bank)))) := rfl

/-- The register bank after an instruction (R100): the generated flags in F, then the sum in A. -/
def addBank (i : Instr) (k : RegBank) : RegBank :=
  setCell .a (addSum k.a (operandValue (instrTarget i) k))
    (setCell .f (packFlags (addFlags k.a (operandValue (instrTarget i) k))) k)

/-- An instruction always completes, with the bank `addBank` and status OK (R100). -/
theorem exec_eq_addBank (i : Instr) (s : State) :
    exec i s = .next ((s.setBank (addBank i s.bank)).setResponse (some (.status .ok))) := by
  rw [exec_eq_execAdd, execAdd_eq]
  rfl

theorem eq_of_exec_next {i : Instr} {s t : State} (h : exec i s = .next t) :
    t = (s.setBank (addBank i s.bank)).setResponse (some (.status .ok)) := by
  injection (exec_eq_addBank i s).symm.trans h with ht
  exact ht.symm

theorem readCell_addBank_other {q : RegName} (ha : q ≠ .a) (hf : q ≠ .f) (i : Instr) (k : RegBank) :
    readCell q (addBank i k) = readCell q k := by
  simp [addBank, ha, hf]

@[simp] theorem readCell_f_addBank (i : Instr) (k : RegBank) :
    readCell .f (addBank i k) = packFlags (addFlags k.a (operandValue (instrTarget i) k)) := rfl

/-- The setter of a flag touches no cell but F (R33). -/
theorem readCell_setFlag_other {q : RegName} (hf : q ≠ .f) (g : Flag) (b : Bool) (k : RegBank) :
    readCell q (setFlag g b k) = readCell q k := by
  simp [setFlag, hf]

@[simp] theorem readCell_f_setFlag (g : Flag) (b : Bool) (k : RegBank) :
    readCell .f (setFlag g b k) = setFlagBit g b (readCell .f k) := rfl

/-- Everything an operation can do to the register bank and the queue when it answers a next state: the queue stays, and
the bank stays or takes one of the four writes of R36. -/
theorem perform_bank_cases {o : HostOp} {s t : State} (h : perform o s = .next t) :
    t.pending = s.pending ∧
    (t.bank = s.bank ∨
      (∃ i, (o = .exec i ∨ ∃ w, o = .execWord w) ∧ t.bank = addBank i s.bank) ∨
      (∃ r v, o = .write r v ∧ (r = .f → flagByteOk v = true) ∧ t.bank = setCell r v s.bank) ∨
      (∃ p v, o = .writePair p v ∧ t.bank = writePair p v s.bank) ∨
      (∃ g b, o = .setFlag g b ∧ t.bank = setFlag g b s.bank)) := by
  obtain ⟨i, ho, he⟩ | ⟨w, -, -, rfl⟩ | ⟨r, -, rfl⟩ | ⟨r, v, ho, hok, rfl⟩ | ⟨v, -, -, rfl⟩ | ⟨p, -, rfl⟩ |
    ⟨p, v, ho, rfl⟩ | ⟨g, b, ho, rfl⟩ | ⟨g, -, rfl⟩ := perform_cases h
  · obtain rfl := eq_of_exec_next he
    have hop : o = .exec i ∨ ∃ w, o = .execWord w := ho.imp_right fun ⟨w, hw, _⟩ => ⟨w, hw⟩
    exact ⟨rfl, .inr (.inl ⟨i, hop, rfl⟩)⟩
  · exact ⟨rfl, .inl rfl⟩
  · exact ⟨rfl, .inl rfl⟩
  · exact ⟨rfl, .inr (.inr (.inl ⟨r, v, ho, hok, rfl⟩))⟩
  · exact ⟨rfl, .inl rfl⟩
  · exact ⟨rfl, .inl rfl⟩
  · exact ⟨rfl, .inr (.inr (.inr (.inl ⟨p, v, ho, rfl⟩)))⟩
  · exact ⟨rfl, .inr (.inr (.inr (.inr ⟨g, b, ho, rfl⟩)))⟩
  · exact ⟨rfl, .inl rfl⟩

/-- The writers of R36 keep R23's invariant: the flag generator and the setters by construction, the write of F by its
check, and every other write because its cell is not F. -/
theorem perform_keeps_flagNibbleZero {o : HostOp} {s t : State} (h : perform o s = .next t)
    (hs : s.FlagNibbleZero) : t.FlagNibbleZero := by
  rw [flagNibbleZero_iff] at hs ⊢
  obtain ⟨-, hk | ⟨i, -, hk⟩ | ⟨r, v, -, hok, hk⟩ | ⟨p, v, -, hk⟩ | ⟨g, b, -, hk⟩⟩ := perform_bank_cases h <;> rw [hk]
  · exact hs
  · rw [readCell_f_addBank]
    exact flagByteOk_packFlags _
  · exact flagByteOk_setCell hs hok
  · rw [readCell_f_writePair]
    exact hs
  · rw [readCell_f_setFlag]
    exact flagByteOk_setFlagBit hs g b

/-! ### The terms of the statements -/

@[simp] theorem bitOf_eq_flagPos (g : Flag) : bitOf g = flagPos g := by
  cases g <;> rfl

theorem mayWrite_writePair (p : PairName) (v : Half) : mayWrite (.writePair p v) = [pairHigh p, pairLow p] := by
  cases p <;> rfl

/-- An instruction may write A and F, in either of its forms (R36). -/
theorem mayWrite_of_exec {o : HostOp} {i : Instr} (h : o = .exec i ∨ ∃ w, o = .execWord w) :
    mayWrite o = [.a, .f] := by
  obtain rfl | ⟨w, rfl⟩ := h <;> rfl

@[simp] theorem readCell_powerOn (r : RegName) : readCell r RegBank.powerOn = 0#8 := by
  cases r <;> rfl

end Sys2Proof.Machine

namespace Sys2Proof.Proofs

open Sys2Proof.Machine Sys2Proof.Claims

/-- Settles O37: the idle step changes nothing, a reset gives the cells of power-on, and every operation keeps the
invariant. -/
theorem everyStepKeepsFlagNibbleZero : Obligations.EveryStepKeepsFlagNibbleZero := by
  intro s t hs h
  obtain ⟨-, rfl⟩ | ⟨rest, -, rfl⟩ | ⟨o, rest, -, ho⟩ := step_cases h
  · exact hs
  · exact reset_flagNibbleZero
  · exact perform_keeps_flagNibbleZero ho hs

/-- Settles O16: the check of R32 is divisibility by 16. -/
theorem writeOfFlagRegisterIsChecked : Obligations.WriteOfFlagRegisterIsChecked := by
  intro v s
  rw [← flagByteOk_iff_exists_mul]
  constructor
  · intro hok
    exact hostWrite_f_of_ok hok s
  · intro hbad
    exact hostWrite_f_of_not_ok (Bool.eq_false_of_not_eq_true hbad) s

/-- Settles O19: the two extracted bytes are the quotient and the remainder by 256. -/
theorem writePairSplitsTheValue : Obligations.WritePairSplitsTheValue := by
  intro v s
  have hwrite (p : PairName) : perform (.writePair p v) s =
      .next ((s.setBank (setCell (pairLow p) (BitVec.ofNat 8 (v.toNat % 256))
        (setCell (pairHigh p) (BitVec.ofNat 8 (v.toNat / 256)) s.bank))).setResponse (some (.status .ok))) := by
    rw [← writePair_eq_div_mod]
    rfl
  exact ⟨hwrite .bc, hwrite .de, hwrite .hl⟩

/-- Settles O21: `setFlag` sets one bit of the cell F. -/
theorem setFlagWritesExactlyOneBit : Obligations.SetFlagWritesExactlyOneBit := by
  intro g b s
  refine ⟨(s.setBank (setFlag g b s.bank)).setResponse (some .done), rfl, rfl, ?_, ?_, rfl, rfl⟩
  · intro j
    rw [bitOf_eq_flagPos]
    exact getLsbD_setFlagBit g b s.bank.f j
  · intro r hr
    exact readCell_setFlag_other hr g b s.bank

/-- Settles O24: each of the four ways to write the bank touches only cells that the table lists for it. -/
theorem operationsChangeOnlyListedCells : Obligations.OperationsChangeOnlyListedCells := by
  intro o s t h
  obtain ⟨hpending, hbank⟩ := perform_bank_cases h
  refine ⟨fun r hr => ?_, hpending⟩
  obtain hk | ⟨i, ho, hk⟩ | ⟨q, v, rfl, -, hk⟩ | ⟨p, v, rfl, hk⟩ | ⟨g, b, rfl, hk⟩ := hbank <;> rw [hk]
  · obtain ⟨ha, hf⟩ : r ≠ .a ∧ r ≠ .f := by simpa [mayWrite_of_exec ho] using hr
    exact readCell_addBank_other ha hf i s.bank
  · have hq : r ≠ q := by simpa [mayWrite] using hr
    exact readCell_setCell_other hq v s.bank
  · obtain ⟨hhi, hlo⟩ : r ≠ pairHigh p ∧ r ≠ pairLow p := by simpa [mayWrite_writePair] using hr
    rw [readCell_writePair, if_neg hlo, if_neg hhi]
  · have hf : r ≠ .f := by simpa [mayWrite] using hr
    exact readCell_setFlag_other hf g b s.bank

/-- Settles O1: views and flags are computed from the eight zero cells. -/
theorem powerOnReadsAllZero : Obligations.PowerOnReadsAllZero := by
  refine ⟨readCell_powerOn, fun p => ?_, fun g => ?_⟩
  · simp [State.reset, readPair]
  · simp [State.reset, hasFlag, hasFlagBit]

/-- Settles O2, on the one concrete reset state. -/
theorem resetHasFlagNibbleZeroAndNoMark : Obligations.ResetHasFlagNibbleZeroAndNoMark :=
  ⟨reset_flagNibbleZero, rfl⟩

/-- Settles O14; under the invariant F holds a multiple of 16. -/
theorem readAnswersTheCell : Obligations.ReadAnswersTheCell := by
  intro s
  refine ⟨perform_read .a s, perform_read .b s, perform_read .c s, perform_read .d s, perform_read .e s,
    perform_read .f s, perform_read .h s, perform_read .l s, fun hs => ?_⟩
  exact (flagByteOk_iff_toNat_mod s.bank.f).mp ((flagNibbleZero_iff s).mp hs)

/-- Settles O15: only the write of F is checked. -/
theorem writeOfOtherRegisterStoresValue : Obligations.WriteOfOtherRegisterStoresValue := by
  intro r v s hr
  refine ⟨_, hostWrite_of_ne_f hr v s, rfl, ?_, fun q hq => readCell_setCell_other hq v s.bank, rfl, rfl⟩
  rw [perform_read, State.setResponse_bank, State.setBank_bank, readCell_setCell_same]
  rfl

/-- Settles O18: the value of a view in the naturals. -/
theorem readPairAnswersTheView : Obligations.ReadPairAnswersTheView := by
  intro s
  have hread (p : PairName) : perform (.readPair p) s = .next (s.setResponse (some (.half (BitVec.ofNat 16
      (256 * (readCell (pairHigh p) s.bank).toNat + (readCell (pairLow p) s.bank).toNat))))) := by
    rw [← readPair_eq_ofNat]
    rfl
  exact ⟨hread .bc, hread .de, hread .hl⟩

/-- Settles O22: the model tests the bit that R24 gives the flag. -/
theorem hasFlagAnswersOneBit : Obligations.HasFlagAnswersOneBit := by
  intro g s
  rw [bitOf_eq_flagPos]
  rfl

end Sys2Proof.Proofs

/-! PROOFS. Accesses and their order (20_memory.md R62 to R68): the byte order of the views, repeated writes, and how a
host sequence composes. -/

namespace Sys2Proof.Machine

open Sys2Proof.Claims

/-! ### The byte order of the composite views -/

theorem pairHigh_ne_pairLow (p : PairName) : pairHigh p ≠ pairLow p := by
  cases p <;> decide

theorem pairHigh_ne_f (p : PairName) : pairHigh p ≠ .f := by
  cases p <;> decide

theorem pairLow_ne_f (p : PairName) : pairLow p ≠ .f := by
  cases p <;> decide

@[simp] theorem readCell_pairHigh_writePair (p : PairName) (v : Half) (k : RegBank) :
    readCell (pairHigh p) (writePair p v k) = BitVec.ofNat 8 (v.toNat / 256) := by
  rw [writePair_eq_div_mod, readCell_setCell_other (pairHigh_ne_pairLow p), readCell_setCell_same]

@[simp] theorem readCell_pairLow_writePair (p : PairName) (v : Half) (k : RegBank) :
    readCell (pairLow p) (writePair p v k) = BitVec.ofNat 8 (v.toNat % 256) := by
  rw [writePair_eq_div_mod, readCell_setCell_same]

/-- A view reads back the value a pair write gave it (R62). -/
@[simp] theorem readPair_writePair (p : PairName) (v : Half) (k : RegBank) :
    readPair p (writePair p v k) = v := by
  apply BitVec.eq_of_toNat_eq
  rw [toNat_readPair, readCell_pairHigh_writePair, readCell_pairLow_writePair]
  have hv := v.isLt
  simp only [BitVec.toNat_ofNat]
  omega

/-- A byte write of the first-named register is the view's high half (R62). -/
theorem toNat_readPair_setCell_pairHigh (p : PairName) (x : Byte) (k : RegBank) :
    (readPair p (setCell (pairHigh p) x k)).toNat = 256 * x.toNat + (readCell (pairLow p) k).toNat := by
  rw [toNat_readPair, readCell_setCell_same, readCell_setCell_other (pairHigh_ne_pairLow p).symm]

/-- A byte write of the second-named register is the view's low half (R62). -/
theorem toNat_readPair_setCell_pairLow (p : PairName) (x : Byte) (k : RegBank) :
    (readPair p (setCell (pairLow p) x k)).toNat = 256 * (readCell (pairHigh p) k).toNat + x.toNat := by
  rw [toNat_readPair, readCell_setCell_same, readCell_setCell_other (pairHigh_ne_pairLow p)]

/-- `read_pair(p)` answers the view and changes nothing (R28). -/
theorem perform_readPair (p : PairName) (s : State) :
    perform (.readPair p) s = .next (s.setResponse (some (.half (readPair p s.bank)))) := rfl

/-! ### Repeated writes -/

/-- Of two writes of one cell the second stands. -/
@[simp] theorem setCell_setCell (r : RegName) (v w : Byte) (k : RegBank) :
    setCell r w (setCell r v k) = setCell r w k := by
  cases r <;> rfl

@[simp] theorem writePair_writePair (p : PairName) (v w : Half) (k : RegBank) :
    writePair p w (writePair p v k) = writePair p w k := by
  cases p <;> rfl

@[simp] theorem setFlagBit_setFlagBit (g : Flag) (b c : Bool) (v : Byte) :
    setFlagBit g c (setFlagBit g b v) = setFlagBit g c v := by
  apply BitVec.eq_of_getLsbD_eq
  intro j _
  simp only [getLsbD_setFlagBit]
  split <;> rfl

@[simp] theorem setFlag_setFlag (g : Flag) (b c : Bool) (k : RegBank) :
    setFlag g c (setFlag g b k) = setFlag g c k := by
  simp [setFlag]

/-- A host's write that passes the check of R32, which concerns F only, stores the value (R31, R32). -/
theorem hostWrite_of_accepted {r : RegName} {v : Byte} (h : r = .f → flagByteOk v = true) (s : State) :
    hostWrite r v s = .next ((s.setBank (setCell r v s.bank)).setResponse (some (.status .ok))) := by
  by_cases hr : r = .f
  · subst hr
    exact hostWrite_f_of_ok (h rfl) s
  · exact hostWrite_of_ne_f hr v s

/-- A host's write either passes the check of R32 or is one of F that fails it. -/
theorem write_accepted_or_refused (r : RegName) (v : Byte) :
    (r = .f → flagByteOk v = true) ∨ (r = .f ∧ flagByteOk v = false) := by
  by_cases hr : r = .f
  · cases hv : flagByteOk v with
    | true => exact .inl fun _ => rfl
    | false => exact .inr ⟨hr, rfl⟩
  · exact .inl fun hf => absurd hf hr

/-- A write of R66 stores by a map of the register bank that a second application does not change, and its answer does
not depend on the state; the map of a refused write is the identity. -/
theorem perform_of_isWrite {o : HostOp} (hw : isWrite o = true) :
    ∃ (f : RegBank → RegBank) (r : Response), (∀ k, f (f k) = f k) ∧
      ∀ s, perform o s = .next ((s.setBank (f s.bank)).setResponse (some r)) := by
  cases o with
  | write r v =>
    obtain hok | ⟨rfl, hbad⟩ := write_accepted_or_refused r v
    · exact ⟨setCell r v, .status .ok, setCell_setCell r v v, hostWrite_of_accepted hok⟩
    · exact ⟨id, .status (.error .invalidFlagValue), fun _ => rfl, hostWrite_f_of_not_ok hbad⟩
  | writePair p v => exact ⟨writePair p v, .status .ok, writePair_writePair p v v, fun _ => rfl⟩
  | setFlag g b => exact ⟨setFlag g b, .done, setFlag_setFlag g b b, fun _ => rfl⟩
  | exec | execWord | read | readPair | hasFlag => cases hw

/-! ### Sequences -/

/-- An operation of the interface completes, and it neither sees nor changes what the host has issued after it (R68). -/
theorem exists_perform_setPending (o : HostOp) (s : State) :
    ∃ t : State, ∀ q, perform o (s.setPending q) = .next (t.setPending q) := by
  cases o with
  | exec i => exact ⟨(s.setBank (addBank i s.bank)).setResponse (some (.status .ok)), fun q => exec_eq_addBank i _⟩
  | execWord w =>
    cases hd : decode w with
    | instr i =>
      exact ⟨(s.setBank (addBank i s.bank)).setResponse (some (.status .ok)),
        fun q => (execWord_of_instr hd _).trans (exec_eq_addBank i _)⟩
    | illegal =>
      exact ⟨s.markIllegal.setResponse (some (.status (.error (.illegalInstruction w)))),
        fun q => execWord_of_illegal hd _⟩
  | read r => exact ⟨s.setResponse (some (.byte (readCell r s.bank))), fun _ => rfl⟩
  | write r v =>
    obtain hok | ⟨rfl, hbad⟩ := write_accepted_or_refused r v
    · exact ⟨(s.setBank (setCell r v s.bank)).setResponse (some (.status .ok)),
        fun q => hostWrite_of_accepted hok _⟩
    · exact ⟨s.setResponse (some (.status (.error .invalidFlagValue))), fun q => hostWrite_f_of_not_ok hbad _⟩
  | readPair p => exact ⟨s.setResponse (some (.half (readPair p s.bank))), fun _ => rfl⟩
  | writePair p v => exact ⟨(s.setBank (writePair p v s.bank)).setResponse (some (.status .ok)), fun _ => rfl⟩
  | setFlag g b => exact ⟨(s.setBank (setFlag g b s.bank)).setResponse (some .done), fun _ => rfl⟩
  | hasFlag g => exact ⟨s.setResponse (some (.bit (hasFlag g s.bank))), fun _ => rfl⟩

/-- The same of every event: a reset by the containing system leaves the queue to the host (R182). -/
theorem exists_performEvent_setPending (e : HostEvent) (s : State) :
    ∃ t : State, ∀ q, performEvent e (s.setPending q) = .next (t.setPending q) := by
  cases e with
  | op o => exact exists_perform_setPending o s
  | reset => exact ⟨(s.setBank RegBank.powerOn).setResponse none, fun _ => rfl⟩

/-- A run whose first step answers a next state goes on from that state (R185). -/
theorem run_succ_of_step {M : Host.Core} {s t : M.State} (h : M.step s = .next t) (k : Nat) :
    M.run (k + 1) s = M.run k t := by
  rw [Host.Core.run, h]

theorem runPending_nil (s : State) : runPending (s.setPending []) = .next (s.setPending []) := rfl

/-- The run of a sequence is its first event and then the run of the rest from the state that event leaves, whatever the
rest is (R68, R185). -/
theorem exists_runPending_cons (e : HostEvent) (s : State) :
    ∃ t : State, ∀ q, runPending (s.setPending (e :: q)) = runPending (t.setPending q) := by
  obtain ⟨t, ht⟩ := exists_performEvent_setPending e s
  refine ⟨t, fun q => ?_⟩
  have hstep : step (s.setPending (e :: q)) = .next (t.setPending q) := (step_of_cons rfl).trans (ht q)
  exact run_succ_of_step (M := core) (s := s.setPending (e :: q)) (t := t.setPending q) hstep q.length

/-- The run of a joined sequence goes on from the state in which the run of its first part ended (R68). -/
theorem runPending_append {q : List HostEvent} {s t : State} (h : runPending (s.setPending q) = .next t)
    (q' : List HostEvent) : runPending (s.setPending (q ++ q')) = runPending (t.setPending q') := by
  induction q generalizing s with
  | nil =>
    injection (runPending_nil s).symm.trans h with ht
    rw [← ht]
    rfl
  | cons e q ih =>
    obtain ⟨u, hu⟩ := exists_runPending_cons e s
    rw [hu] at h
    rw [List.cons_append, hu]
    exact ih h

end Sys2Proof.Machine

namespace Sys2Proof.Proofs

open Sys2Proof.Machine Sys2Proof.Claims

/-- Settles O20: each access goes to the two cells of the view, first-named register high. -/
theorem viewByteOrderIsFixed : Obligations.ViewByteOrderIsFixed := by
  intro v x s
  refine ⟨fun p => ?_, fun p => ?_, fun p => ?_, rfl, rfl, rfl, rfl, rfl, rfl⟩
  · refine ⟨(s.setBank (writePair p v s.bank)).setResponse (some (.status .ok)), rfl, ?_, ?_, ?_⟩
    · rw [perform_readPair, State.setResponse_bank, State.setBank_bank, readPair_writePair]
      rfl
    · rw [perform_read, State.setResponse_bank, State.setBank_bank, readCell_pairHigh_writePair]
      rfl
    · rw [perform_read, State.setResponse_bank, State.setBank_bank, readCell_pairLow_writePair]
      rfl
  · exact ⟨_, hostWrite_of_ne_f (pairHigh_ne_f p) x s, toNat_readPair_setCell_pairHigh p x s.bank⟩
  · exact ⟨_, hostWrite_of_ne_f (pairLow_ne_f p) x s, toNat_readPair_setCell_pairLow p x s.bank⟩

/-- Settles O23: storing the same cells again changes nothing, and the answer is the same. -/
theorem writesAreIdempotent : Obligations.WritesAreIdempotent := by
  intro o s t hw h
  obtain ⟨f, r, hf, hperform⟩ := perform_of_isWrite hw
  injection (hperform s).symm.trans h with ht
  rw [← ht, hperform, State.setResponse_bank, State.setBank_bank, hf]
  rfl

/-- Settles O39, by the law of joined sequences. -/
theorem sequencesComposeInOrder : Obligations.SequencesComposeInOrder :=
  fun _ q' _ _ h => runPending_append h q'

/-- Settles O35: `step` looks at the head of the queue and at nothing else. -/
theorem stepTakesTheOldestOperation : Obligations.StepTakesTheOldestOperation :=
  ⟨fun _ _ _ h => step_of_cons h, fun _ h => step_of_nil h⟩

end Sys2Proof.Proofs

/-! PROOFS. The instruction word (30_encoding.md R80 to R88): the decoder inverts the encoder, the illegal words are
those of R87, and a word runs its instruction, as an operation and as the next step. -/

namespace Sys2Proof

open Sys2Proof.Claims

/-! ### The words that decode to an instruction -/

/-- The decoder in terms of the two fields: the op field is the one of ADD A,r and the r code names a target (R85). -/
theorem decode_eq_instr_iff_fields (w : Byte) (i : Instr) :
    decode w = .instr i ↔ (splitWord w).op = 0b10000#5 ∧ decodeTarget (splitWord w).r = some (instrTarget i) := by
  by_cases hop : (splitWord w).op = 0b10000#5
  · cases ht : decodeTarget (splitWord w).r with
    | none => simp [decode, hop, ht]
    | some t =>
      have hadd : addOf t = i ↔ t = instrTarget i := ⟨fun h => by simp [← h], fun h => by simp [h]⟩
      simp [decode, hop, ht, hadd]
  · simp [decode, hop]

/-- A word decodes to an instruction exactly when it is that instruction's encoding (R84, R85). -/
theorem decode_eq_instr_iff (w : Byte) (i : Instr) : decode w = .instr i ↔ w = encode i := by
  rw [decode_eq_instr_iff_fields, decodeTarget_eq_some_iff]
  constructor
  · rintro ⟨hop, hr⟩
    rw [← joinFields_splitWord w, encode, hr, ← hop]
  · rintro rfl
    simp [encode]

@[simp] theorem decode_encode (i : Instr) : decode (encode i) = .instr i :=
  (decode_eq_instr_iff _ i).mpr rfl

/-! ### The illegal words -/

/-- The op field, bits 7..3, is the word divided by 8 (R83). -/
theorem toNat_splitWord_op (w : Byte) : (splitWord w).op.toNat = w.toNat / 8 := by
  have hw := w.isLt
  simp only [splitWord, BitVec.extractLsb'_toNat, Nat.shiftRight_eq_div_pow]
  omega

/-- The r field, bits 2..0, is the word modulo 8 (R83). -/
theorem toNat_splitWord_r (w : Byte) : (splitWord w).r.toNat = w.toNat % 8 := by
  simp only [splitWord, BitVec.extractLsb'_toNat, Nat.shiftRight_zero, Nat.reducePow]

/-- The checks of R83 and R84 on the word's number: one of 0x80 to 0x87, and not 0x86. -/
theorem splitWord_wellFormed_iff (w : Byte) :
    (splitWord w).wellFormed = true ↔ w.toNat / 8 = 16 ∧ w.toNat % 8 ≠ 6 := by
  rw [← toNat_splitWord_op, ← toNat_splitWord_r]
  simp [WordFields.wellFormed, WordFields.opOk, WordFields.targetOk, ← BitVec.toNat_inj]

/-- The decoder answers Illegal exactly on the 249 words of R87. -/
theorem decode_eq_illegal_iff (w : Byte) : decode w = .illegal ↔ IllegalRange w := by
  have hlegal : decode w ≠ .illegal ↔ w.toNat / 8 = 16 ∧ w.toNat % 8 ≠ 6 :=
    (decode_ne_illegal_iff w).trans (splitWord_wellFormed_iff w)
  refine not_iff_not.mp (hlegal.trans ?_)
  rw [IllegalRange]
  omega

theorem exists_decode_eq_instr {w : Byte} (h : ¬ IllegalRange w) : ∃ i, decode w = .instr i := by
  cases hd : decode w with
  | instr i => exact ⟨i, rfl⟩
  | illegal => exact absurd ((decode_eq_illegal_iff w).mp hd) h

/-- The decoder on a word of the opcode table is the decoder on its first word (R88). -/
theorem decodeTableWord_eq_some_iff (nbits w : Nat) (i : Instr) :
    decodeTableWord nbits w = some i ↔ decode (firstWord nbits w) = .instr i := by
  unfold decodeTableWord
  cases decode (firstWord nbits w) <;> simp

end Sys2Proof

namespace Sys2Proof.Machine

/-! ### A word runs its instruction -/

/-- `exec_word` of an instruction's encoding is `exec` of the instruction (R86). -/
theorem perform_execWord_encode (i : Instr) (s : State) : perform (.execWord (encode i)) s = exec i s :=
  execWord_of_instr (decode_encode i) s

/-- A step whose oldest operation is the word of an instruction runs that instruction (R86, R114). -/
theorem step_of_execWord {s : State} {w : Byte} {i : Instr} {rest : List HostEvent}
    (hp : s.pending = .op (.execWord w) :: rest) (hd : decode w = .instr i) :
    step s = exec i (s.setPending rest) :=
  (step_of_cons hp).trans (execWord_of_instr hd _)

end Sys2Proof.Machine

namespace Sys2Proof.Proofs

open Sys2Proof.Machine Sys2Proof.Claims

/-- Settles O25: both directions are the law that the decoder inverts the encoder. -/
theorem decodeAndEncodeAgree : Obligations.DecodeAndEncodeAgree :=
  ⟨fun i _ => decode_encode i, fun w i h => ((decode_eq_instr_iff w i).mp h).symm⟩

/-- Settles O27: the words of R87 are those the decoder refuses, and any other word runs its instruction, which ends OK. -/
theorem illegalWordAnswersAndSetsTheMark : Obligations.IllegalWordAnswersAndSetsTheMark := by
  intro w s
  constructor
  · intro hw
    exact execWord_of_illegal ((decode_eq_illegal_iff w).mpr hw) s
  · intro hw
    obtain ⟨i, hi⟩ := exists_decode_eq_instr hw
    exact ⟨_, (execWord_of_instr hi s).trans (exec_eq_addBank i s), rfl, rfl⟩

/-- Settles O26: the seven legal words are the encodings of the seven instructions, the five others lie in the range of
R87. -/
theorem decodeReadsTheTablesWords : Obligations.DecodeReadsTheTablesWords := by
  have hillegal {w : Byte} (hw : IllegalRange w) : decode w = .illegal := (decode_eq_illegal_iff w).mpr hw
  exact ⟨decode_encode .addB, decode_encode .addC, decode_encode .addD, decode_encode .addE, decode_encode .addH,
    decode_encode .addL, decode_encode .addA, hillegal (.inr (.inl rfl)), hillegal (.inl (by decide)),
    hillegal (.inl (by decide)), hillegal (.inr (.inr (by decide))), hillegal (.inr (.inr (by decide)))⟩

/-- Settles O28: each of the seven words is the encoding of its instruction. -/
theorem wordFormRunsTheInstruction : Obligations.WordFormRunsTheInstruction := fun s =>
  ⟨perform_execWord_encode .addB s, perform_execWord_encode .addC s, perform_execWord_encode .addD s,
    perform_execWord_encode .addE s, perform_execWord_encode .addH s, perform_execWord_encode .addL s,
    perform_execWord_encode .addA s⟩

/-- Settles O33; that the instruction is well formed follows from its type and is not needed. -/
theorem stepRunsTheDecodedInstruction : Obligations.StepRunsTheDecodedInstruction :=
  fun _ _ _ _ hp hd _ => step_of_execWord hp hd

/-- Settles O34: the step takes the supplied word off the queue again, which leaves the state as it was. -/
theorem suppliedTableWordRunsNext : Obligations.SuppliedTableWordRunsNext :=
  fun _ nbits w i h => step_of_execWord rfl ((decodeTableWord_eq_some_iff nbits w i).mp h)

end Sys2Proof.Proofs

/-! PROOFS. The ALU family ADD A,r (40_dispatch_alu.md R100 to R113): the result and the flags in the naturals, the frame,
the seven flag bytes, the symmetry in the operands, and the flag writeback as four setter calls. -/

namespace Sys2Proof.Machine

open Sys2Proof.Claims

/-! ### The adder and its flags -/

/-- The result as the byte that R104 writes out. -/
theorem addSum_eq_ofNat (old v : Byte) : addSum old v = BitVec.ofNat 8 ((old.toNat + v.toNat) % 256) := by
  rw [← toNat_addSum, BitVec.ofNat_toNat, BitVec.setWidth_eq]

/-- The flag generator in the naturals (R104 to R106). -/
theorem addFlags_eq (old v : Byte) :
    addFlags old v =
      ⟨decide ((old.toNat + v.toNat) % 256 = 0), false, decide (old.toNat % 16 + v.toNat % 16 > 15),
        decide (old.toNat + v.toNat > 255)⟩ := by
  have hz : (addSum old v == 0x00#8) = decide ((old.toNat + v.toNat) % 256 = 0) := by
    rw [← toNat_addSum, beq_eq_decide]
    exact decide_eq_decide.mpr BitVec.toNat_inj.symm
  rw [addFlags, hz, addHalfCarry_eq, addCarry_eq]

/-- The layout of F in the naturals (R24, R107). -/
theorem packFlags_eq_ofNat (x : AluFlags) :
    packFlags x = BitVec.ofNat 8
      ((if x.z then 128 else 0) + (if x.n then 64 else 0) + (if x.h then 32 else 0) + (if x.c then 16 else 0)) := by
  obtain ⟨z, n, h, c⟩ := x
  cases z <;> cases n <;> cases h <;> cases c <;> rfl

theorem addSum_comm (x y : Byte) : addSum x y = addSum y x := by
  rw [addSum_eq_ofNat, addSum_eq_ofNat, Nat.add_comm]

theorem addFlags_comm (x y : Byte) : addFlags x y = addFlags y x := by
  rw [addFlags_eq, addFlags_eq, Nat.add_comm x.toNat, Nat.add_comm (x.toNat % 16)]

/-- Zero without carry says that the exact sum is 0, so both operands are (R113 i). -/
theorem addFlags_zero_without_carry_iff (old v : Byte) :
    (addFlags old v).z = true ∧ (addFlags old v).c = false ↔ old = 0x00#8 ∧ v = 0x00#8 := by
  have ho := old.isLt
  have hv := v.isLt
  simp only [addFlags_eq, decide_eq_true_eq, decide_eq_false_iff_not, ← BitVec.toNat_inj, BitVec.toNat_ofNat]
  omega

/-- Zero and half carry bring a carry: without one both operands are 0, and so are their low nibbles. -/
theorem addFlags_carry_of_zero_of_halfCarry {old v : Byte} (hz : (addFlags old v).z = true)
    (hh : (addFlags old v).h = true) : (addFlags old v).c = true := by
  by_contra hc
  obtain ⟨rfl, rfl⟩ := (addFlags_zero_without_carry_iff old v).mp ⟨hz, Bool.eq_false_of_not_eq_true hc⟩
  exact absurd hh (by decide)

/-- With N clear, the one flag byte beside the seven of R113 (h) is that of zero and half carry without carry. -/
theorem packFlags_mem_seven {x : AluFlags} (hn : x.n = false) (hc : x.z = true → x.h = true → x.c = true) :
    packFlags x ∈ [0x00#8, 0x10#8, 0x20#8, 0x30#8, 0x80#8, 0x90#8, 0xB0#8] := by
  obtain ⟨z, n, h, c⟩ := x
  obtain rfl : n = false := hn
  revert hc
  cases z <;> cases h <;> cases c <;> decide

/-- Operands for each of the seven flag bytes of R113 (h). -/
theorem exists_operands_of_mem_seven {x : Byte}
    (hx : x ∈ [0x00#8, 0x10#8, 0x20#8, 0x30#8, 0x80#8, 0x90#8, 0xB0#8]) :
    ∃ old v, packFlags (addFlags old v) = x := by
  simp only [List.mem_cons, List.not_mem_nil, or_false] at hx
  obtain rfl | rfl | rfl | rfl | rfl | rfl | rfl := hx
  · exact ⟨0x01#8, 0x01#8, by decide⟩
  · exact ⟨0xF0#8, 0x20#8, by decide⟩
  · exact ⟨0x0F#8, 0x01#8, by decide⟩
  · exact ⟨0xFF#8, 0xFF#8, by decide⟩
  · exact ⟨0x00#8, 0x00#8, by decide⟩
  · exact ⟨0x80#8, 0x80#8, by decide⟩
  · exact ⟨0xFF#8, 0x01#8, by decide⟩

/-! ### An instruction's operands, result and frame -/

/-- The operand of an instruction is the register that R130 to R136 list for it. -/
@[simp] theorem operandValue_instrTarget (i : Instr) (k : RegBank) :
    operandValue (instrTarget i) k = readCell (addedReg i) k := by
  cases i <;> rfl

theorem addedReg_ne_a {i : Instr} (hi : i ≠ .addA) : addedReg i ≠ .a := by
  cases i with
  | addA => exact absurd rfl hi
  | addB | addC | addD | addE | addH | addL => decide

@[simp] theorem readCell_a_addBank (i : Instr) (k : RegBank) :
    readCell .a (addBank i k) = addSum k.a (readCell (addedReg i) k) := by
  rw [addBank, readCell_setCell_same, operandValue_instrTarget]

/-- The flags after an instruction are the generator's outputs (R106, R107). -/
theorem hasFlag_addBank (g : Flag) (i : Instr) (k : RegBank) :
    hasFlag g (addBank i k) = hasFlagBit g (packFlags (addFlags k.a (readCell (addedReg i) k))) := by
  rw [hasFlag, readCell_f_addBank, operandValue_instrTarget]

/-- A view holds neither A nor F (R26, R27), so no instruction changes it (R110). -/
theorem readPair_addBank (p : PairName) (i : Instr) (k : RegBank) : readPair p (addBank i k) = readPair p k := by
  have hhi : pairHigh p ≠ .a := by cases p <;> decide
  have hlo : pairLow p ≠ .a := by cases p <;> decide
  rw [readPair, readCell_addBank_other hhi (pairHigh_ne_f p), readCell_addBank_other hlo (pairLow_ne_f p), readPair]

/-- The instruction's next state with A and F in the naturals (R104, R105). -/
theorem exec_eq_addAfter (i : Instr) (s : State) :
    exec i s = .next (addAfter s (readCell (addedReg i) s.bank)) := by
  rw [exec_eq_addBank, addBank, operandValue_instrTarget, addSum_eq_ofNat, packFlags_eq_ofNat, addFlags_eq]
  simp only [decide_eq_true_eq, Bool.false_eq_true, if_false, Nat.add_zero]
  rfl

/-- An instruction run with x in A and y in the register it adds, which must be another one. -/
theorem exists_exec_of_operands {i : Instr} (hi : i ≠ .addA) (x y : Byte) (s : State) :
    ∃ t, exec i (s.setBank (setCell .a x (setCell (addedReg i) y s.bank))) = .next t ∧
      t.bank.a = addSum x y ∧ t.bank.f = packFlags (addFlags x y) := by
  have hv : readCell (addedReg i) (setCell .a x (setCell (addedReg i) y s.bank)) = y := by
    rw [readCell_setCell_other (addedReg_ne_a hi), readCell_setCell_same]
  refine ⟨_, exec_eq_addBank i _, (readCell_a_addBank i _).trans ?_, (readCell_f_addBank i _).trans ?_⟩
  · rw [State.setBank_bank, hv]
    rfl
  · rw [operandValue_instrTarget, State.setBank_bank, hv]
    rfl

/-! ### The flag writeback and the flag setters -/

theorem flagPos_injective {g g' : Flag} (h : flagPos g = flagPos g') : g = g' := by
  revert h
  cases g <;> cases g' <;> decide

/-- Each bit of the high nibble of F is a flag (R24). -/
theorem exists_flagPos_eq {j : Nat} (hlo : 4 ≤ j) (hhi : j < 8) : ∃ g, flagPos g = j := by
  interval_cases j
  · exact ⟨.carry, rfl⟩
  · exact ⟨.halfCarry, rfl⟩
  · exact ⟨.subtraction, rfl⟩
  · exact ⟨.zero, rfl⟩

/-- A flag read after one flag was set: the value set there, any other flag as before (R33, R34). -/
theorem hasFlagBit_setFlagBit (g g' : Flag) (b : Bool) (v : Byte) :
    hasFlagBit g (setFlagBit g' b v) = if g = g' then b else hasFlagBit g v := by
  have hpos : flagPos g = flagPos g' ↔ g = g' := ⟨flagPos_injective, congrArg flagPos⟩
  simp only [hasFlagBit, getLsbD_setFlagBit, hpos]

/-- A byte that passes the check of a write to F is determined by its four flags (R23, R24). -/
theorem eq_of_forall_hasFlagBit {v w : Byte} (hv : flagByteOk v = true) (hw : flagByteOk w = true)
    (h : ∀ g, hasFlagBit g v = hasFlagBit g w) : v = w := by
  apply BitVec.eq_of_getLsbD_eq
  intro j hj
  by_cases hlo : j < 4
  · rw [(flagByteOk_iff v).mp hv j hlo, (flagByteOk_iff w).mp hw j hlo]
  · obtain ⟨g, rfl⟩ := exists_flagPos_eq (Nat.le_of_not_lt hlo) hj
    exact h g

end Sys2Proof.Machine

namespace Sys2Proof.Proofs

open Sys2Proof.Machine Sys2Proof.Claims

/-- Settles O3: one law for all seven instructions. -/
theorem addCompletesWithSumAndFlagByte : Obligations.AddCompletesWithSumAndFlagByte := fun s =>
  ⟨exec_eq_addAfter .addB s, exec_eq_addAfter .addC s, exec_eq_addAfter .addD s, exec_eq_addAfter .addE s,
    exec_eq_addAfter .addH s, exec_eq_addAfter .addL s, exec_eq_addAfter .addA s⟩

/-- Settles O4: A holds the adder's result, and each accessor reads one output of the flag generator. -/
theorem addSatisfiesQuantifiedLaws : Obligations.AddSatisfiesQuantifiedLaws := by
  intro i s
  have hflag (g : Flag) := hasFlag_addBank g i s.bank
  simp only [hasFlagBit_packFlags, addFlags_eq] at hflag
  refine ⟨_, exec_eq_addBank i s, ?_, ?_, ?_, ?_, hflag .subtraction⟩
  · exact (congrArg BitVec.toNat (readCell_a_addBank i s.bank)).trans (toNat_addSum _ _)
  · exact (hflag .zero).congr_left.trans decide_eq_true_iff
  · exact (hflag .carry).congr_left.trans decide_eq_true_iff
  · exact (hflag .halfCarry).congr_left.trans decide_eq_true_iff

/-- Settles O6: the next state differs in the bank and the answer only, and in the bank in A and F only. -/
theorem addChangesOnlyAAndF : Obligations.AddChangesOnlyAAndF := by
  intro i s t h
  obtain rfl := eq_of_exec_next h
  refine ⟨fun r ha hf => readCell_addBank_other ha hf i s.bank, fun p => readPair_addBank p i s.bank, ?_, rfl, rfl⟩
  exact (flagByteOk_iff_toNat_mod _).mp (flagByteOk_packFlags _)

/-- Settles O9: the eighth byte with N clear, 0xA0, would need a half carry from two zero operands; each of the seven has
operands that give it. -/
theorem addLeavesOneOfSevenFlagBytes : Obligations.AddLeavesOneOfSevenFlagBytes := by
  constructor
  · intro i s t h
    obtain rfl := eq_of_exec_next h
    refine ⟨packFlags_mem_seven rfl addFlags_carry_of_zero_of_halfCarry, ?_⟩
    rw [State.setResponse_bank, State.setBank_bank, hasFlag_addBank, hasFlag_addBank, hasFlagBit_packFlags,
      hasFlagBit_packFlags]
    exact addFlags_zero_without_carry_iff _ _
  · intro i x hi hx
    obtain ⟨old, v, rfl⟩ := exists_operands_of_mem_seven hx
    obtain ⟨t, ht, -, hf⟩ := exists_exec_of_operands hi old v State.reset
    exact ⟨_, t, ht, hf⟩

/-- Settles O10: the adder and the flag generator are commutative. -/
theorem addIsSymmetricInItsOperands : Obligations.AddIsSymmetricInItsOperands := by
  intro i s x y hi
  obtain ⟨t, ht, ha, hf⟩ := exists_exec_of_operands hi x y s
  obtain ⟨t', ht', ha', hf'⟩ := exists_exec_of_operands hi y x s
  refine ⟨t, t', ht, ht', ?_, ?_⟩
  · rw [ha, ha', addSum_comm]
  · rw [hf, hf', addFlags_comm]

/-- Settles O12: both bytes pass the check of a write to F, and they agree in each of the four flags. -/
theorem flagWritebackEqualsFourSetters : Obligations.FlagWritebackEqualsFourSetters := by
  intro x v hv
  have hpack := flagByteOk_packFlags x
  have hsets := flagByteOk_setFlagBit (flagByteOk_setFlagBit (flagByteOk_setFlagBit (flagByteOk_setFlagBit
    (beq_iff_eq.mpr hv) .zero x.z) .subtraction x.n) .halfCarry x.h) .carry x.c
  refine ⟨eq_of_forall_hasFlagBit hsets hpack fun g => ?_, beq_iff_eq.mp hpack⟩
  rw [hasFlagBit_packFlags]
  cases g <;> simp [hasFlagBit_setFlagBit]

/-- Settles O11, target by target. -/
theorem targetsNameTheirRegisters : Obligations.TargetsNameTheirRegisters := by
  refine ⟨rfl, rfl, rfl, rfl, rfl, rfl, rfl, fun t => ?_⟩
  cases t <;> decide

/-- Settles O13: the writeback looks at the status of the byte write alone. -/
theorem failedResultWriteIsInvariantViolation : Obligations.FailedResultWriteIsInvariantViolation := by
  intro dest v i s e k h
  rw [writeResult, h, raise]

end Sys2Proof.Proofs

/-! PROOFS. The instructions of ADD A,r (41_add.md R130 to R139): ADD A, A as a shift of the old A, the old flags as no
operand, and the register bank as all that an instruction reads. -/

namespace Sys2Proof.Machine

open Sys2Proof.Claims

/-! ### A byte added to itself -/

/-- Doubling is a shift (R136). -/
theorem addSum_self (old : Byte) : addSum old old = old <<< 1 := by
  apply BitVec.eq_of_toNat_eq
  rw [toNat_addSum, BitVec.toNat_shiftLeft, Nat.shiftLeft_eq]
  omega

/-- The flags of a doubling: 0x00 and 0x80 are the bytes whose double is 0 modulo 256, and each carry is the top bit of
its half of the old byte (R136). -/
theorem addFlags_self (old : Byte) :
    addFlags old old =
      ⟨decide (old = 0x00#8 ∨ old = 0x80#8), false, old.getLsbD 3, old.getLsbD 7⟩ := by
  have hold := old.isLt
  have hz : (old.toNat + old.toNat) % 256 = 0 ↔ old = 0x00#8 ∨ old = 0x80#8 := by
    simp only [← BitVec.toNat_inj, BitVec.toNat_ofNat]
    omega
  have hbit (j : Nat) : old.getLsbD j = decide (old.toNat / 2 ^ j % 2 = 1) := Nat.testBit_eq_decide_div_mod_eq
  have hh : old.toNat % 16 + old.toNat % 16 > 15 ↔ old.toNat / 2 ^ 3 % 2 = 1 := by omega
  have hc : old.toNat + old.toNat > 255 ↔ old.toNat / 2 ^ 7 % 2 = 1 := by omega
  simp only [addFlags_eq, hbit, hz, hh, hc]

/-! ### The old flags -/

/-- F is no operand (R81). -/
theorem addedReg_ne_f (i : Instr) : addedReg i ≠ .f := by
  cases i <;> decide

/-- No instruction adds F, and each overwrites the whole of it (R106): the bank it leaves is the same whatever F
held (R139). -/
@[simp] theorem addBank_setCell_f (i : Instr) (x : Byte) (k : RegBank) :
    addBank i (setCell .f x k) = addBank i k := by
  have hv : readCell (addedReg i) (setCell .f x k) = readCell (addedReg i) k :=
    readCell_setCell_other (addedReg_ne_f i) x k
  have ha : (setCell .f x k).a = k.a := rfl
  simp only [addBank, operandValue_instrTarget, hv, ha, setCell_setCell]

/-- The outcome of an instruction does not depend on the flags it found (R139). -/
theorem exec_setCell_f (i : Instr) (x : Byte) (s : State) :
    exec i (s.setBank (setCell .f x s.bank)) = exec i s := by
  rw [exec_eq_addBank, exec_eq_addBank, State.setBank_bank, addBank_setCell_f, State.setBank_setBank]

/-- Both forms of an instruction, as a value and as its word, perform it (R86). -/
theorem perform_of_exec_or_execWord {o : HostOp} {i : Instr} (h : o = .exec i ∨ o = .execWord (encode i))
    (s : State) : perform o s = exec i s := by
  obtain rfl | rfl := h
  · rfl
  · exact perform_execWord_encode i s

/-- A run looks at the state it starts from through its first step alone (R185). -/
theorem run_succ_congr_of_step {M : Host.Core} {s s' : M.State} (h : M.step s = M.step s') (k : Nat) :
    M.run (k + 1) s = M.run (k + 1) s' := by
  simp only [Host.Core.run, h]

/-- Two states with the same events to run, at least one, and the first step in common have the run in common (R185). -/
theorem runPending_congr_of_step {s s' : State} {e : HostEvent} {rest : List HostEvent}
    (hs : s.pending = e :: rest) (hs' : s'.pending = e :: rest) (hstep : step s = step s') :
    runPending s = runPending s' := by
  rw [runPending, runPending, hs, hs', List.length_cons]
  exact run_succ_congr_of_step (M := core) (s := s) (s' := s') hstep rest.length

end Sys2Proof.Machine

namespace Sys2Proof.Proofs

open Sys2Proof.Machine Sys2Proof.Claims

/-- Settles O5: the adder and the flag generator with both operands the old A. -/
theorem addAccumulatorDoublesOldValue : Obligations.AddAccumulatorDoublesOldValue := by
  intro s
  have hflag (g : Flag) := hasFlag_addBank g .addA s.bank
  have hv : readCell (addedReg .addA) s.bank = s.bank.a := rfl
  simp only [hv, addFlags_self, hasFlagBit_packFlags] at hflag
  refine ⟨_, exec_eq_addBank .addA s, ?_, ?_, hflag .subtraction, hflag .halfCarry, hflag .carry, ?_, ?_⟩
  · exact (readCell_a_addBank .addA s.bank).trans (addSum_self s.bank.a)
  · exact (hflag .zero).congr_left.trans decide_eq_true_iff
  · exact (flagByteOk_iff_toNat_mod _).mp (flagByteOk_packFlags _)
  · exact fun r ha hf => readCell_addBank_other ha hf .addA s.bank

/-- Settles O7: the first step of the run is the instruction, and its outcome is the same whatever F held. -/
theorem addErasesOldFlags : Obligations.AddErasesOldFlags := by
  intro i s x
  refine ⟨exec_setCell_f i x s, fun o rest ho hp => ?_⟩
  have hp' : (s.setBank (setCell .f x s.bank)).pending = .op o :: rest := hp
  refine runPending_congr_of_step hp' hp ?_
  calc step (s.setBank (setCell .f x s.bank))
      = exec i ((s.setBank (setCell .f x s.bank)).setPending rest) :=
        (step_of_cons hp').trans (perform_of_exec_or_execWord ho _)
    _ = exec i (s.setPending rest) := exec_setCell_f i x (s.setPending rest)
    _ = step s := ((step_of_cons hp).trans (perform_of_exec_or_execWord ho _)).symm

/-- Settles O8: the bank an instruction leaves is a function of the bank it finds. -/
theorem addIsDeterminedByRegisterBank : Obligations.AddIsDeterminedByRegisterBank :=
  fun i s s' h => ⟨_, _, exec_eq_addBank i s, exec_eq_addBank i s', congrArg (addBank i) h⟩

end Sys2Proof.Proofs

/-! PROOFS. Errors (60_exceptions.md R150 to R160): which operations end in an error, what an error leaves unchanged, the
mark of R154, and that no operation and no step ends otherwise than in a next state. -/

namespace Sys2Proof.Machine

open Sys2Proof.Claims

/-! ### The two errors after which the run goes on -/

/-- A byte fails the check of R32 exactly when its low nibble is not zero (R151). -/
theorem flagByteOk_eq_false_iff (v : Byte) : flagByteOk v = false ↔ v &&& 0x0F#8 ≠ 0#8 :=
  beq_eq_false_iff_ne

/-- The three ways an operation answers the host (R150, R151, R154): InvalidFlagValue on a refused write of F,
IllegalInstruction on an illegal word, and otherwise an answer that is no error, with the mark as it was. -/
theorem perform_answer_cases {o : HostOp} {s t : State} (h : perform o s = .next t) :
    (∃ v, o = .write .f v ∧ v &&& 0x0F#8 ≠ 0#8 ∧ t = s.setResponse (some (.status (.error .invalidFlagValue)))) ∨
    (∃ w, o = .execWord w ∧ IllegalRange w ∧
      t = s.markIllegal.setResponse (some (.status (.error (.illegalInstruction w))))) ∨
    ((∃ r, t.response = some r ∧ ∀ e, r ≠ .status (.error e)) ∧ t.illegalSeen = s.illegalSeen ∧
      ∀ w, o = .execWord w → ¬ IllegalRange w) := by
  obtain ⟨i, ho, he⟩ | ⟨w, rfl, hw, rfl⟩ | ⟨r, rfl, rfl⟩ | ⟨r, v, rfl, -, rfl⟩ | ⟨v, rfl, hv, rfl⟩ | ⟨p, rfl, rfl⟩ |
    ⟨p, v, rfl, rfl⟩ | ⟨g, b, rfl, rfl⟩ | ⟨g, rfl, rfl⟩ := perform_cases h
  · obtain rfl := eq_of_exec_next he
    refine .inr (.inr ⟨⟨_, rfl, nofun⟩, rfl, ?_⟩)
    rintro w rfl hw
    obtain hexec | ⟨w', hword, hd⟩ := ho
    · cases hexec
    · obtain rfl := HostOp.execWord.inj hword
      cases hd.symm.trans ((decode_eq_illegal_iff w).mpr hw)
  · exact .inr (.inl ⟨w, rfl, (decode_eq_illegal_iff w).mp hw, rfl⟩)
  · exact .inr (.inr ⟨⟨_, rfl, nofun⟩, rfl, nofun⟩)
  · exact .inr (.inr ⟨⟨_, rfl, nofun⟩, rfl, nofun⟩)
  · exact .inl ⟨v, rfl, (flagByteOk_eq_false_iff v).mp hv, rfl⟩
  · exact .inr (.inr ⟨⟨_, rfl, nofun⟩, rfl, nofun⟩)
  · exact .inr (.inr ⟨⟨_, rfl, nofun⟩, rfl, nofun⟩)
  · exact .inr (.inr ⟨⟨_, rfl, nofun⟩, rfl, nofun⟩)
  · exact .inr (.inr ⟨⟨_, rfl, nofun⟩, rfl, nofun⟩)

/-- The two ways an operation answers an error (R151, R154, R158). -/
theorem perform_error_cases {o : HostOp} {s t : State} {e : CoreError} (h : perform o s = .next t)
    (he : t.response = some (.status (.error e))) :
    (∃ v, o = .write .f v ∧ v &&& 0x0F#8 ≠ 0#8 ∧ e = .invalidFlagValue ∧
      t = s.setResponse (some (.status (.error e)))) ∨
    (∃ w, o = .execWord w ∧ IllegalRange w ∧ e = .illegalInstruction w ∧
      t = s.markIllegal.setResponse (some (.status (.error e)))) := by
  obtain ⟨v, ho, hv, rfl⟩ | ⟨w, ho, hw, rfl⟩ | ⟨⟨r, hr, hne⟩, -, -⟩ := perform_answer_cases h
  · cases he
    exact .inl ⟨v, ho, hv, rfl, rfl⟩
  · cases he
    exact .inr ⟨w, ho, hw, rfl, rfl⟩
  · exact absurd (Option.some.inj (hr.symm.trans he)) (hne e)

/-- InvalidFlagValue comes from a refused write of F, which changes nothing but the answer (R151). -/
theorem perform_invalidFlagValue {o : HostOp} {s t : State} (h : perform o s = .next t)
    (he : t.response = some (.status (.error .invalidFlagValue))) :
    (∃ v, o = .write .f v ∧ v &&& 0x0F#8 ≠ 0#8) ∧ t = s.setResponse (some (.status (.error .invalidFlagValue))) := by
  obtain ⟨v, ho, hv, -, ht⟩ | ⟨w, -, -, hcode, -⟩ := perform_error_cases h he
  · exact ⟨⟨v, ho, hv⟩, ht⟩
  · cases hcode

/-! ### The mark -/

/-- An illegal word sets the mark, and every other operation leaves it as it was (R154). -/
theorem perform_illegalSeen_iff {o : HostOp} {s t : State} (h : perform o s = .next t) :
    t.illegalSeen = true ↔ s.illegalSeen = true ∨ ∃ w, o = .execWord w ∧ IllegalRange w := by
  obtain ⟨v, rfl, -, rfl⟩ | ⟨w, rfl, hw, rfl⟩ | ⟨-, hmark, hlegal⟩ := perform_answer_cases h
  · simp
  · exact iff_of_true rfl (.inr ⟨w, rfl, hw⟩)
  · rw [hmark]
    exact (or_iff_left fun ⟨w, ho, hw⟩ => hlegal w ho hw).symm

/-! ### Every operation and every step completes -/

theorem exists_response_of_perform {o : HostOp} {s t : State} (h : perform o s = .next t) :
    ∃ r, t.response = some r := by
  obtain ⟨v, -, -, rfl⟩ | ⟨w, -, -, rfl⟩ | ⟨⟨r, hr, -⟩, -, -⟩ := perform_answer_cases h
  · exact ⟨_, rfl⟩
  · exact ⟨_, rfl⟩
  · exact ⟨r, hr⟩

theorem exists_perform (o : HostOp) (s : State) : ∃ t, perform o s = .next t :=
  (exists_perform_setPending o s).imp' (·.setPending s.pending) fun _ ht => ht s.pending

theorem exists_step (s : State) : ∃ t, step s = .next t := by
  cases hp : s.pending with
  | nil => exact ⟨s, step_of_nil hp⟩
  | cons e rest =>
    obtain ⟨t, ht⟩ := exists_performEvent_setPending e s
    exact ⟨t.setPending rest, (step_of_cons hp).trans (ht rest)⟩

end Sys2Proof.Machine

namespace Sys2Proof.Proofs

open Sys2Proof.Machine Sys2Proof.Claims

/-- Settles O17: InvalidFlagValue comes from a refused write of F alone, and every such write is refused with it. -/
theorem invalidFlagValueExactlyOnBadFlagWrite : Obligations.InvalidFlagValueExactlyOnBadFlagWrite := by
  refine fun o s => ⟨⟨?_, ?_⟩, fun t h he => (perform_invalidFlagValue h he).2⟩
  · rintro ⟨t, h, he⟩
    exact (perform_invalidFlagValue h he).1
  · rintro ⟨v, rfl, hv⟩
    exact ⟨_, hostWrite_f_of_not_ok ((flagByteOk_eq_false_iff v).mpr hv) s, rfl⟩

/-- Settles O29, in the two ways an operation answers an error. -/
theorem recoverableErrorsArePrecise : Obligations.RecoverableErrorsArePrecise := by
  intro o s t e h he
  obtain ⟨v, ho, hv, hcode, rfl⟩ | ⟨w, ho, hw, hcode, rfl⟩ := perform_error_cases h he
  · exact ⟨rfl, rfl, .inl ⟨hcode, ⟨v, ho, hv⟩, rfl⟩⟩
  · exact ⟨rfl, rfl, .inr ⟨w, hcode, ho, hw, rfl⟩⟩

/-- Settles O30: the writes that could fail fatally are of registers other than F, and those are always OK. -/
theorem invariantViolationIsUnreachable : Obligations.InvariantViolationIsUnreachable := by
  refine ⟨fun o s => ?_, exists_step⟩
  obtain ⟨t, ht⟩ := exists_perform o s
  obtain ⟨r, hr⟩ := exists_response_of_perform ht
  exact ⟨t, r, ht, hr⟩

/-- Settles O31: the idle step and a reset by the containing system keep the mark, and the step of an operation changes
it as the operation does. -/
theorem illegalMarkIsSticky : Obligations.IllegalMarkIsSticky := by
  intro s t h
  obtain ⟨hp, rfl⟩ | ⟨rest, hp, rfl⟩ | ⟨o, rest, hp, ho⟩ := step_cases h
  · simp [hp]
  · simp [hp]
  · simpa [hp] using perform_illegalSeen_iff ho

/-- Settles O32; the number is a function of the kind of error alone. -/
theorem statusNumbersAreAsDecided : Obligations.StatusNumbersAreAsDecided :=
  ⟨rfl, rfl, fun _ _ => rfl, fun _ => rfl⟩

end Sys2Proof.Proofs

/-! PROOFS. Reset and sequences (70_reset_and_hazards.md R180 to R185): a reset by the containing system, and the run of
everything the host has issued, with what it keeps. -/

namespace Sys2Proof.Machine

/-! ### Runs -/

/-- A run of one step or more that answers a next state took its first step to a next state and went on from there. -/
theorem exists_step_of_run_succ {M : Host.Core} {k : Nat} {s t : M.State} (h : M.run (k + 1) s = .next t) :
    ∃ u, M.step s = .next u ∧ M.run k u = .next t := by
  cases hstep : M.step s with
  | next u => exact ⟨u, rfl, (run_succ_of_step hstep k).symm.trans h⟩
  | fault r => simp [Host.Core.run, hstep] at h
  | refused r => simp [Host.Core.run, hstep] at h

/-- A run keeps whatever every step keeps. -/
theorem run_keeps {M : Host.Core} {P : M.State → Prop} (hP : ∀ s t, P s → M.step s = .next t → P t) {k : Nat}
    {s t : M.State} (hs : P s) (h : M.run k s = .next t) : P t := by
  induction k generalizing s with
  | zero =>
    injection h with ht
    exact ht ▸ hs
  | succ k ih =>
    obtain ⟨u, hstep, hrun⟩ := exists_step_of_run_succ h
    exact ih (hP s u hs hstep) hrun

/-- The run of the host's sequence keeps whatever every step keeps (R185). -/
theorem runPending_keeps {P : State → Prop} (hP : ∀ s t, P s → step s = .next t → P t) {s t : State} (hs : P s)
    (h : runPending s = .next t) : P t :=
  run_keeps (M := core) hP hs h

/-- The run of a sequence uses it up: each event completes and leaves the rest of the queue as it was (R112, R185). -/
theorem exists_runPending_setPending (q : List HostEvent) (s : State) :
    ∃ t : State, runPending (s.setPending q) = .next (t.setPending []) := by
  induction q generalizing s with
  | nil => exact ⟨s, runPending_nil s⟩
  | cons e q ih =>
    obtain ⟨u, hu⟩ := exists_runPending_cons e s
    rw [hu]
    exact ih u

theorem normalEnd_runPending (s : State) : NormalEnd (runPending s) := by
  obtain ⟨t, ht⟩ : ∃ t : State, runPending s = .next (t.setPending []) := exists_runPending_setPending s.pending s
  rw [ht]
  exact State.setPending_pending t []

end Sys2Proof.Machine

namespace Sys2Proof.Proofs

open Sys2Proof.Machine

/-- Settles O38: every event completes, and both properties are ones that every step keeps. -/
theorem everyHostSequenceEndsNormally : Obligations.EveryHostSequenceEndsNormally := by
  refine fun s => ⟨normalEnd_runPending s, fun t h => ⟨fun hs => ?_, fun hs => ?_⟩⟩
  · exact runPending_keeps everyStepKeepsFlagNibbleZero hs h
  · exact runPending_keeps (P := (·.illegalSeen = true)) (fun u v hu hstep =>
      (illegalMarkIsSticky u v hstep).mpr (.inl hu)) hs h

/-- Settles O36: the step takes the reset off the queue and puts the bank of power-on in place. -/
theorem systemResetGivesPowerOnCells : Obligations.SystemResetGivesPowerOnCells :=
  fun _ _ hp => ⟨_, step_of_cons hp, readCell_powerOn, rfl, rfl, rfl⟩

end Sys2Proof.Proofs
